-- ==== Sys2Proof/Word.lean ====
section
/-! DEFINITION. Word: bytes, channel numbers, four-channel arrays, and the data the host hands to the block:
waveforms, saved-state records and requests. Types and the plainest access only; nothing here has a meaning. -/

namespace Sys2Proof

/-- A byte on a port, or a byte-wide register (R56). -/
abbrev Byte := BitVec 8

/-- A channel number 0..3: tone channels 0, 1, 2 and noise channel 3 (R1). -/
abbrev Channel := Fin 4

/-- One value for each of the four channels: the spec's arrays `x[0..3]` (R10). -/
structure Quad (α : Type) where
  c0 : α
  c1 : α
  c2 : α
  c3 : α
  deriving DecidableEq, Repr

/-- `x[c]`. -/
def Quad.get {α : Type} (q : Quad α) : Channel → α
  | 0 => q.c0
  | 1 => q.c1
  | 2 => q.c2
  | 3 => q.c3

/-- `x[c] <- a`. -/
def Quad.set {α : Type} (q : Quad α) (c : Channel) (a : α) : Quad α :=
  match c with
  | 0 => { q with c0 := a }
  | 1 => { q with c1 := a }
  | 2 => { q with c2 := a }
  | 3 => { q with c3 := a }

/-- The same value for each channel. -/
def Quad.all {α : Type} (a : α) : Quad α := ⟨a, a, a, a⟩

/-- The block's two write ports (R59, R70). -/
inductive Port where
  | reg
  | stereo
  deriving DecidableEq, Repr

/-- A waveform of `WAVE_STORE` (R51). -/
structure Waveform where
  /-- Unsigned 8-bit samples; 128 is silence. -/
  data : List Byte
  /-- `WLen(w)`. -/
  length : Nat
  /-- `WLoop(w)`. -/
  loopDistance : Nat
  /-- `WPer(w)`; 0 disables the increment derivation. -/
  periodCount : Nat
  deriving DecidableEq, Repr

/-- One channel of a saved-state record. The fields are integers, since a record may break the widths (R129). -/
structure SavedChannel where
  volume : Int
  period : Int
  waveformRef : Option Int
  position : Int
  increment : Int
  volumeScaled : Int
  deriving DecidableEq, Repr

/-- The record LOAD_STATE takes: a value for each element of R21 to R32 (R129). The noise phase is the
position of channel 3 (R31). -/
structure SavedState where
  chan : Quad SavedChannel
  lastLatch : Int
  stereoMask : Int
  lfsr : Int
  /-- `echo[0]`, `echo[1]`, … in order. -/
  echo : List Int
  writeCursor : Int
  deriving DecidableEq, Repr

/-- One operation as the host issues it (R70). The two port writes carry a raw byte; which of the four
register forms a REG byte is, the decoder says (R75). -/
inductive Request where
  | writeReg (b : Byte)
  | writeStereo (b : Byte)
  | tick
  | init (rate : Nat) (enh : Bool) (store : List Waveform)
  | setRate (rate : Nat)
  | recalcAll
  | loadState (saved : SavedState)
  deriving DecidableEq, Repr

end Sys2Proof
end

