-- ==== Sys2Proof/Config.lean ====
section
/-! DEFINITION. Config: the parameters the model takes as arguments (R7). `Params` carries any choice of them;
`Config.params` is the machine's own: the spec's defaults where a parameter is fixed by one, and constants
without a body where the spec leaves the parameter OPEN. -/

namespace Sys2Proof

/-- The parameters of R7, in a form in which every value is allowed: the constraints of the spec are built in
by the functions that read them (Machine/Operands.lean), and each legal choice is reached (log 9 to 13). -/
structure Params where
  /-- `CHIP_CLOCK_HZ`. -/
  chipClockHz : Nat
  /-- `SQUARE_THRESHOLD`. -/
  squareThreshold : Nat
  /-- `STEREO_RESET`. -/
  stereoReset : Byte
  /-- `ATTEN_TABLE` before P1 to P3 are imposed. -/
  attenRaw : Nat → Nat
  /-- `ECHO_LEN` is 2 to this power. -/
  echoLog2 : Nat
  /-- `INSTRUMENT_INDEX(c)` is one more than this. -/
  instrumentRaw : Channel → Nat
  /-- The fraction `LOOP_REMASK(p)` puts in place of p's, before it is cut to ten bits. -/
  remaskRaw : Nat → Nat
  /-- `ECHO_SCALE` where three quarters of the value is no integer. -/
  echoScaleRaw : Int → Int

/-- OPEN (D17): the attenuation table's entries. -/
opaque Config.attenRaw : Nat → Nat

/-- OPEN (D13): the echo ring's size, as a power of two. -/
opaque Config.echoLog2 : Nat

/-- OPEN (D9): the instrument of each channel. -/
opaque Config.instrumentRaw : Channel → Nat

/-- OPEN (D10): what the re-mask after a rewind leaves in the fraction. -/
opaque Config.remaskRaw : Nat → Nat

/-- OPEN (D11): how "3/4 of their value" rounds. -/
opaque Config.echoScaleRaw : Int → Int

/-- The default of R7, the document's "~3,579,540 Hz" (D18; log 14, DESIGN CHOICE of the spec). -/
def Config.chipClockHz : Nat := 3579540

/-- The default of R7, the document's literal 0x9f0 (D31; log 14). -/
def Config.squareThreshold : Nat := 0x9F0

/-- The default of R7 (D5; log 14). -/
def Config.stereoReset : Byte := 0xFF

/-- The machine's parameters. -/
def Config.params : Params where
  chipClockHz := Config.chipClockHz
  squareThreshold := Config.squareThreshold
  stereoReset := Config.stereoReset
  attenRaw := Config.attenRaw
  echoLog2 := Config.echoLog2
  instrumentRaw := Config.instrumentRaw
  remaskRaw := Config.remaskRaw
  echoScaleRaw := Config.echoScaleRaw

end Sys2Proof
end

