-- ==== Sys2Proof/Syntax.lean ====
section
/-! DEFINITION. Syntax: one constructor for each of the ten rows of spec/opcode_table.json. -/

namespace Sys2Proof

/-- The block's operations (R70, R75). A register form carries every field of its byte, the ignored bits
too, since the raw byte reaches the trace (R101). -/
inductive Instr where
  /-- `1cc1dddd` on REG; `d` is the wire attenuation (R71, R103). -/
  | volLatch (c : Channel) (d : BitVec 4)
  /-- `1cc0pppp` on REG (R71, R104). -/
  | perLatch (c : Channel) (p : BitVec 4)
  /-- `0xxxdddd` on REG while `last_latch[4] = 1`; `x` is ignored (R71, R77, R105). -/
  | volCont (x : BitVec 3) (d : BitVec 4)
  /-- `0xPPPPPP` on REG while `last_latch[4] = 0`; `x` is ignored (R71, R77, R106). -/
  | perCont (x : BitVec 1) (p : BitVec 6)
  /-- `RRRRLLLL` on STEREO, active-low (R73, R110). -/
  | writeStereo (r : BitVec 4) (l : BitVec 4)
  /-- One output sample (R160). -/
  | tick
  /-- The only reset (R220). -/
  | init (rate : Nat) (enh : Bool) (store : List Waveform)
  /-- A new output sample rate (R128). -/
  | setRate (rate : Nat)
  /-- Re-derivation of all four channels (R127). -/
  | recalcAll
  /-- A state reload (R129). -/
  | loadState (saved : SavedState)
  deriving DecidableEq, Repr

end Sys2Proof
end

