-- ==== Sys2Proof/WellFormed.lean ====
section
/-! DEFINITION. WellFormed: what the spec asks of an operation's arguments by themselves (R52, R129, R222).
No meaning rests on it: an ill-formed operation still has the outcome its rule gives (a fault, or none). -/

namespace Sys2Proof

/-- R52: (a) at least one sample, (b) the rewind distance is in 1..length, (c) the data covers the length. -/
def Waveform.wf (w : Waveform) : Bool :=
  decide (1 ≤ w.length) && decide (1 ≤ w.loopDistance) && decide (w.loopDistance ≤ w.length) &&
    decide (w.length ≤ w.data.length)

/-- `0 ≤ n < bound`. -/
def inRange (n : Int) (bound : Nat) : Bool := decide (0 ≤ n) && decide (n < bound)

/-- One channel of a record is within the widths of 10_state.md (R21, R22, R26 to R29). -/
def SavedChannel.wf (ch : SavedChannel) : Bool :=
  inRange ch.volume (2 ^ 4) && inRange ch.period (2 ^ 10) && inRange ch.position (2 ^ 31) &&
    decide (0 ≤ ch.increment) && inRange ch.volumeScaled (0x1000 + 1) &&
    ch.waveformRef.all fun w => decide (0 ≤ w)

/-- A record is within the widths of 10_state.md, as far as its own text says (R129). Whether its waveform
references and its echo ring fit the machine is asked when it is loaded. -/
def SavedState.wf (r : SavedState) : Bool :=
  r.chan.c0.wf && r.chan.c1.wf && r.chan.c2.wf && r.chan.c3.wf && inRange r.lastLatch (2 ^ 8) &&
    inRange r.stereoMask (2 ^ 8) && inRange r.lfsr (2 ^ 17) && decide (0 ≤ r.writeCursor)

/-- The operation's arguments meet the constraints the spec puts on them: a positive rate (R220, R128), a store
of well-formed waveforms (R222), a record within its widths (R129). Every byte is well formed (R77). -/
def Instr.wf : Instr → Bool
  | .volLatch _ _ => true
  | .perLatch _ _ => true
  | .volCont _ _ => true
  | .perCont _ _ => true
  | .writeStereo _ _ => true
  | .tick => true
  | .init rate _ store => decide (0 < rate) && store.all Waveform.wf
  | .setRate rate => decide (0 < rate)
  | .recalcAll => true
  | .loadState saved => saved.wf

end Sys2Proof
end

