-- ==== Sys2Proof/Decode.lean ====
section
/-! DEFINITION. Decode: from a request of the host to the operation it is (R75), and back to the byte each
register form stands for (R71, R73). The decode is total: no byte is illegal (R77). -/

namespace Sys2Proof

/-- The channel field of a latch byte, bits 6:5 (R72). -/
def channelField (b : Byte) : Channel := Fin.ofNat 4 (b >>> 5).toNat

/-- The data nibble, bits 3:0 (R71). -/
def dataField (b : Byte) : BitVec 4 := b.extractLsb' 0 4

/-- The ignored bits 6:4 of a volume continuation (R71, R77). -/
def volContIgnored (b : Byte) : BitVec 3 := b.extractLsb' 4 3

/-- The ignored bit 6 of a period continuation (R71, R77). -/
def perContIgnored (b : Byte) : BitVec 1 := b.extractLsb' 6 1

/-- The period-high field, bits 5:0 (R71, R72). -/
def perContField (b : Byte) : BitVec 6 := b.extractLsb' 0 6

/-- Bit 4 of the latch says which register a continuation byte goes on writing: 1 for volume (R23, R75). -/
def latchIsVolume (latch : Byte) : Bool := latch &&& 0x10 != 0

/-- R75: the form of a byte on REG, tested in the spec's order, from the byte and `last_latch`. -/
def decodeReg (latch b : Byte) : Instr :=
  if b &&& 0x90 = 0x90 then .volLatch (channelField b) (dataField b)
  else if b &&& 0x90 = 0x80 then .perLatch (channelField b) (dataField b)
  else if latchIsVolume latch then .volCont (volContIgnored b) (dataField b)
  else .perCont (perContIgnored b) (perContField b)

/-- R73: a byte on STEREO. -/
def decodeStereo (b : Byte) : Instr := .writeStereo (b.extractLsb' 4 4) (b.extractLsb' 0 4)

/-- The operation a request of the host is, given `last_latch` (R70, R75). -/
def decode (latch : Byte) : Request → Instr
  | .writeReg b => decodeReg latch b
  | .writeStereo b => decodeStereo b
  | .tick => .tick
  | .init rate enh store => .init rate enh store
  | .setRate rate => .setRate rate
  | .recalcAll => .recalcAll
  | .loadState saved => .loadState saved

/-- `1cc1dddd` (R71, R80 `vol`). -/
def volLatchByte (c : Channel) (d : BitVec 4) : Byte :=
  0x90 ||| (BitVec.ofNat 8 c.val <<< 5) ||| d.setWidth 8

/-- `1cc0pppp` (R71, R80 `tone`, `noise`). -/
def perLatchByte (c : Channel) (p : BitVec 4) : Byte :=
  0x80 ||| (BitVec.ofNat 8 c.val <<< 5) ||| p.setWidth 8

/-- `0xxxdddd` (R71, R80 `volc`). -/
def volContByte (x : BitVec 3) (d : BitVec 4) : Byte := (x.setWidth 8 <<< 4) ||| d.setWidth 8

/-- `0xPPPPPP` (R71, R80 `perhi`). -/
def perContByte (x : BitVec 1) (p : BitVec 6) : Byte := (x.setWidth 8 <<< 6) ||| p.setWidth 8

/-- `RRRRLLLL` (R73, R80 `pan`). -/
def stereoByte (r l : BitVec 4) : Byte := (r.setWidth 8 <<< 4) ||| l.setWidth 8

/-- The request that stands for an operation: its byte on its port, or the host operation itself (R70). -/
def encode : Instr → Request
  | .volLatch c d => .writeReg (volLatchByte c d)
  | .perLatch c p => .writeReg (perLatchByte c p)
  | .volCont x d => .writeReg (volContByte x d)
  | .perCont x p => .writeReg (perContByte x p)
  | .writeStereo r l => .writeStereo (stereoByte r l)
  | .tick => .tick
  | .init rate enh store => .init rate enh store
  | .setRate rate => .setRate rate
  | .recalcAll => .recalcAll
  | .loadState saved => .loadState saved

/-- The state condition of a row of the opcode table: a continuation form is what `last_latch` says (R75);
every other operation is itself whatever `last_latch` holds. -/
def Instr.fits (latch : Byte) : Instr → Bool
  | .volCont _ _ => latchIsVolume latch
  | .perCont _ _ => !latchIsVolume latch
  | .volLatch _ _ => true
  | .perLatch _ _ => true
  | .writeStereo _ _ => true
  | .tick => true
  | .init _ _ _ => true
  | .setRate _ => true
  | .recalcAll => true
  | .loadState _ => true

/-- The request whose bits are `w` in the opcode table's numbering: a row with bits has 8 of them and is a byte
on REG. A row without bits is no byte at all (log 5). -/
def tableRequest (nbits w : Nat) : Option Request :=
  if nbits = 8 then some (.writeReg (BitVec.ofNat 8 w)) else none

/-- What the decoder reads from the bits of a row of the opcode table, with `last_latch` as INIT leaves it,
0x00 (R23, R220): a continuation byte is then a PER_CONT (log 5). -/
def decodeTableWord (nbits w : Nat) : Option Instr := (tableRequest nbits w).map (decode 0x00)

end Sys2Proof
end

