-- ==== Sys2Proof/Machine/State.lean ====
section
/-! DEFINITION. State: everything the spec gives the machine (10_state.md), as plain data; the fault and refusal
reasons; the state after reset and the instance before INIT. -/

namespace Sys2Proof.Machine

/-- What the block tells its collaborators (R76). -/
inductive Event where
  /-- Audio up to now must be flushed. -/
  | flush
  /-- The raw byte, forwarded to the trace logger. -/
  | trace (port : Port) (b : Byte)
  deriving DecidableEq, Repr

/-- The reasons of a model fault (R203). -/
inductive FaultReason where
  | romIndex
  | arithRange
  | badRate
  | badState
  deriving DecidableEq, Repr

/-- One channel: its two registers (R21, R22) and its runtime state (R26 to R29). The noise phase is the
position of channel 3 (R31). -/
structure ChannelState where
  /-- R21: the stored volume, 0 silent, 15 loudest. -/
  volume : BitVec 4
  /-- R22. -/
  period : BitVec 10
  /-- R26: absent, or an index into `WAVE_STORE`. -/
  waveformRef : Option Nat
  /-- R27: 22.10 fixed point. -/
  position : Nat
  /-- R28: 22.10 fixed point, per TICK. -/
  increment : Nat
  /-- R29. -/
  volumeScaled : Nat
  deriving DecidableEq, Repr

/-- The echo RAM (R32, R55), the block's only read/write memory: (index, entry) pairs, indexes strictly rising,
no entry equal to 0, which is what an unlisted index reads as (log 15). -/
abbrev Memory := List (Nat × Int)

/-- The whole state of one instance. -/
structure State where
  /-- The register bank's per-channel registers (R20) and the channel runtime state. -/
  chan : Quad ChannelState
  /-- R23. -/
  lastLatch : Byte
  /-- R24: active-high; bit c left, bit c+4 right. -/
  stereoMask : Byte
  /-- R30. -/
  lfsr : BitVec 17
  /-- R32. -/
  echo : Memory
  /-- R32. -/
  writeCursor : Nat
  /-- R33. -/
  clockIncrement : Nat
  /-- R34. -/
  outputSampleRate : Nat
  /-- R34. -/
  enhancementEnabled : Bool
  /-- R50: set by INIT, read-only otherwise. -/
  waveStore : List Waveform
  /-- Whether INIT has been issued (R222; log 3). -/
  initialised : Bool
  /-- R40: the sticky fault record. -/
  fault : Option FaultReason
  /-- R35: the caller's running totals. -/
  accLeft : Int
  /-- R35. -/
  accRight : Int
  /-- R76: the events emitted, oldest first. -/
  events : List Event
  /-- R160, R174: the pairs the TICKs have returned, oldest first (log 17). -/
  samples : List (Int × Int)
  /-- The model's own: the operations the host has issued and the block has not performed, oldest first (log 4). -/
  pending : List Request
  deriving DecidableEq, Repr

/-- How an operation stops. -/
inductive Fault where
  /-- R203: `raise Fault(reason)` inside an operation; `left` is the state with the sticky record set. Raised by
  recalc_increment, ToneRead, NoiseAdvance, INIT, SET_RATE and LOAD_STATE. Safe: the source defines no value there. -/
  | raised (reason : FaultReason) (left : State)
  /-- R203, R210: an operation issued in a state whose fault record is set has no step. Raised by every operation
  and by an idle step. Safe: nothing goes on. -/
  | terminal (reason : FaultReason)
  /-- R204: the rewind loop never ends, so the TICK has no completing step. Raised by TICK. Safe: nothing goes on. -/
  | stuck
  deriving DecidableEq, Repr

/-- Why an operation has no meaning. -/
inductive Refusal where
  /-- Reserved for exec's arms of instructions without a meaning; no arm uses it. Safe. -/
  | notModelled (mnemonic : String)
  /-- R222: an operation other than INIT on an instance that has not been initialised. Raised by every operation
  but INIT. Safe: the spec gives it no meaning. -/
  | notInitialised
  deriving DecidableEq, Repr

/-- A channel as INIT leaves it (R21, R22, R26 to R29). -/
def ChannelState.reset : ChannelState where
  volume := 0
  period := 0
  waveformRef := none
  position := 0
  increment := 0
  volumeScaled := 0

/-- The machine right after its only reset, INIT (R220, R224), at the document's rate 44100 (R223), without
enhancement and with an empty store (log 1). -/
def State.reset : State where
  chan := Quad.all ChannelState.reset
  lastLatch := 0x00
  stereoMask := Config.stereoReset
  lfsr := 1
  echo := []
  writeCursor := 0
  clockIncrement := Config.chipClockHz * 2 ^ 5 / 44100
  outputSampleRate := 44100
  enhancementEnabled := false
  waveStore := []
  initialised := true
  fault := none
  accLeft := 0
  accRight := 0
  events := []
  samples := []
  pending := []

/-- An instance before any INIT (R222): every operation but INIT is refused there, so the values its other
fields hold are never used (log 3). -/
def State.fresh : State where
  chan := Quad.all ChannelState.reset
  lastLatch := 0x00
  stereoMask := 0x00
  lfsr := 0
  echo := []
  writeCursor := 0
  clockIncrement := 0
  outputSampleRate := 0
  enhancementEnabled := false
  waveStore := []
  initialised := false
  fault := none
  accLeft := 0
  accRight := 0
  events := []
  samples := []
  pending := []

end Sys2Proof.Machine
end

