-- ==== Sys2Proof/Machine/Flags.lean ====
section
/-! DEFINITION. Flags: the block has no flags (R37). Here stand the tests that take their place: each bit or
comparison an operation's rule branches on. -/

namespace Sys2Proof.Machine

/-- R107: a jump of at least three steps louder. -/
def isAttack (old new : BitVec 4) : Bool := old.toNat + 2 < new.toNat

/-- R122: a period of 0 leaves the channel inert. -/
def ChannelState.inert (ch : ChannelState) : Bool := ch.period == 0

/-- R161: `volume_scaled` is 0, the silent path. -/
def ChannelState.silent (ch : ChannelState) : Bool := ch.volumeScaled == 0

/-- R161: a period of at most 4, the bypass path. -/
def ChannelState.bypassed (ch : ChannelState) : Bool := ch.period.toNat ≤ 4

/-- R142: bit 2 of `period[3]` selects the second feedback tap. -/
def feedbackSelect (p : BitVec 10) : Bool := p &&& 4 != 0

/-- R140: bits 1:0 of `period[3]`, the noise rate mode. -/
def noiseMode (p : BitVec 10) : Nat := (p &&& 3).toNat

/-- R144: the noise output bit. -/
def noiseBit (x : BitVec 17) : Bool := x.getLsbD 0

/-- R74: channel c's left enable, bit c. -/
def leftEnable (mask : Byte) (c : Channel) : Bool := mask.getLsbD c.val

/-- R74: channel c's right enable, bit c + 4. -/
def rightEnable (mask : Byte) (c : Channel) : Bool := mask.getLsbD (c.val + 4)

end Sys2Proof.Machine
end

