-- ==== Sys2Proof/Machine/Operands.lean ====
section
/-! DEFINITION. Operands: how a byte's fields become register values (R72, R74), what the parameters of R7 stand
for once their constraints are imposed, and the check and reading of a saved-state record (R129). -/

namespace Sys2Proof.Machine

/-- `x >> n` of a signed value: the arithmetic shift, towards minus infinity (R9). -/
def shiftDown (x : Int) (n : Nat) : Int := x >>> n

/-- R72: the stored volume of a volume byte, the inverse of the wire nibble. -/
def storedVolume (d : BitVec 4) : BitVec 4 := ~~~d

/-- R104: a period latch replaces bits 3:0. -/
def withPeriodLow (p : BitVec 10) (d : BitVec 4) : BitVec 10 := (p &&& 0x3F0) ||| d.setWidth 10

/-- R106: a period continuation replaces bits 9:4. -/
def withPeriodHigh (p : BitVec 10) (d : BitVec 6) : BitVec 10 := (d.setWidth 10 <<< 4) ||| (p &&& 0xF)

/-- R72: the channel a continuation byte goes to, from `last_latch`. -/
def latchedChannel (latch : Byte) : Channel := channelField latch

/-- R74, R110: the stored mask of a stereo byte. -/
def storedMask (b : Byte) : Byte := ~~~b

/-- R120: the least table above `raw` with P1 (entry 0 is 0), P2 (non-decreasing) and P3 (at most 0x100). A `raw`
that has the three properties is its own table. -/
def attenEntry (raw : Nat → Nat) : Nat → Nat
  | 0 => 0
  | v + 1 => max (attenEntry raw v) (min (raw (v + 1)) 0x100)

end Sys2Proof.Machine

namespace Sys2Proof

/-- `ATTEN_TABLE[v]` (R120). -/
def Params.attenTable (P : Params) (v : BitVec 4) : Nat := Machine.attenEntry P.attenRaw v.toNat

/-- `ECHO_LEN`, a power of two of at least 1 (R55). -/
def Params.echoLen (P : Params) : Nat := 2 ^ P.echoLog2

/-- `mask = ECHO_LEN - 1` (R32). -/
def Params.echoMask (P : Params) : Nat := P.echoLen - 1

/-- `INSTRUMENT_INDEX(c)`, an index of at least 1 (R7, R50). -/
def Params.instrumentIndex (P : Params) (c : Channel) : Nat := P.instrumentRaw c + 1

/-- `LOOP_REMASK(p)`: any fraction, the integer index kept, which is Q1 (R163). -/
def Params.loopRemask (P : Params) (p : Nat) : Nat := p / 2 ^ 10 * 2 ^ 10 + P.remaskRaw p % 2 ^ 10

/-- `ECHO_SCALE(x)` (R170): three quarters of x; how it rounds is open, so it is fixed where nothing is to be
rounded and free elsewhere (log 13, DEDUCED). -/
def Params.echoScale (P : Params) (x : Int) : Int := if x % 4 = 0 then 3 * (x / 4) else P.echoScaleRaw x

/-- R33: `(CHIP_CLOCK_HZ << 5) / rate`. -/
def Params.clockIncrementAt (P : Params) (rate : Nat) : Nat := P.chipClockHz * 2 ^ 5 / rate

/-- R220: the clock constraint of INIT, `CHIP_CLOCK_HZ << 5 ≥ 2^31` is out of range. -/
def Params.clockTooFast (P : Params) : Bool := 2 ^ 31 ≤ P.chipClockHz * 2 ^ 5

end Sys2Proof

namespace Sys2Proof.Machine

/-- R129: the waveform reference of a record is absent or an index of the store. -/
def refInStore (store : List Waveform) (ref : Option Int) : Bool :=
  ref.all fun w => inRange w store.length

/-- R129: the record respects the widths of 10_state.md, its references are in the store, its ring has
`ECHO_LEN` entries and its cursor is below `ECHO_LEN`. -/
def acceptsRecord (P : Params) (store : List Waveform) (r : SavedState) : Bool :=
  r.wf && refInStore store r.chan.c0.waveformRef && refInStore store r.chan.c1.waveformRef &&
    refInStore store r.chan.c2.waveformRef && refInStore store r.chan.c3.waveformRef &&
    decide (r.echo.length = P.echoLen) && decide (r.writeCursor < P.echoLen)

/-- The values a channel of an accepted record gives (R129). -/
def loadedChannel (ch : SavedChannel) : ChannelState where
  volume := BitVec.ofInt 4 ch.volume
  period := BitVec.ofInt 10 ch.period
  waveformRef := ch.waveformRef.map Int.toNat
  position := ch.position.toNat
  increment := ch.increment.toNat
  volumeScaled := ch.volumeScaled.toNat

end Sys2Proof.Machine
end

