-- ==== Sys2Proof/Machine/Ops.lean ====
section
/-! DEFINITION. Ops: the named operations over the state that the meanings are made of: channel access, the named
updates, the echo RAM, the waveform ROM, raising a model fault, sequencing, and the gate each operation passes. -/

namespace Sys2Proof.Machine

/-- What an operation or a part of one answers. -/
abbrev Result (α : Type) := Host.Outcome α Fault Refusal

/-- `raise Fault(reason)` (R203): the operation ends, the sticky record is set, and what the operation wrote
before stands in the state left behind (log 7). -/
def raise {α : Type} (reason : FaultReason) (s : State) : Result α :=
  .fault (.raised reason { s with fault := some reason })

/-- One statement of the pseudocode after another (R11): the first fault or stuck condition met is taken (R208). -/
def andThen {α β : Type} (o : Result α) (f : α → Result β) : Result β :=
  match o with
  | .next a => f a
  | .fault r => .fault r
  | .refused r => .refused r

/-- No operation has a step from a state whose fault record is set (R203, R210). -/
def unlessFaulted (s : State) (body : State → Result State) : Result State :=
  match s.fault with
  | some reason => .fault (.terminal reason)
  | none => body s

/-- The gate of every operation but INIT: not faulted (R203), and refused before INIT (R222). -/
def whenReady (s : State) (body : State → Result State) : Result State :=
  unlessFaulted s fun s => if s.initialised then body s else .refused .notInitialised

/-- Nothing is pending: the block holds its state (R200, R217). -/
def idle (s : State) : Result State := unlessFaulted s .next

/-- Channel c. -/
def State.ch (s : State) (c : Channel) : ChannelState := s.chan.get c

/-- Replace channel c. -/
def State.setCh (s : State) (c : Channel) (x : ChannelState) : State := { s with chan := s.chan.set c x }

/-- `emit` for a list of events (R10, R76). -/
def State.emit (s : State) (es : List Event) : State := { s with events := s.events ++ es }

/-- `last_latch <- b` (R23). -/
def State.setLastLatch (s : State) (b : Byte) : State := { s with lastLatch := b }

/-- `stereo_mask <- m` (R24). -/
def State.setStereoMask (s : State) (m : Byte) : State := { s with stereoMask := m }

/-- `lfsr <- x` (R30). -/
def State.setLfsr (s : State) (x : BitVec 17) : State := { s with lfsr := x }

/-- The echo ring and its cursor (R32). -/
def State.setEcho (s : State) (m : Memory) (cursor : Nat) : State := { s with echo := m, writeCursor := cursor }

/-- The rate and what is derived from it (R33, R34). -/
def State.setRate (s : State) (rate clock : Nat) : State :=
  { s with outputSampleRate := rate, clockIncrement := clock }

/-- TICK's end: the pair is added to the caller's totals and returned (R160, R174). -/
def State.deliver (s : State) (left right : Int) : State :=
  { s with accLeft := s.accLeft + left, accRight := s.accRight + right, samples := s.samples ++ [(left, right)] }

/-- The host's oldest operation is taken; `rest` are the others (log 4). -/
def State.setPending (s : State) (rest : List Request) : State := { s with pending := rest }

/-- The write prologue (R101): before any state changes, Flush and then the raw byte to the trace. -/
def prologue (port : Port) (b : Byte) (s : State) : State := s.emit [.flush, .trace port b]

/-- The entry at an index of the echo RAM; an unlisted one is 0 (R32). -/
def Memory.read : Memory → Nat → Int
  | [], _ => 0
  | (a, v) :: rest, i => if i = a then v else Memory.read rest i

/-- Write an entry, keeping the indexes rising and no 0 listed. -/
def Memory.write : Memory → Nat → Int → Memory
  | [], i, v => if v = 0 then [] else [(i, v)]
  | (a, w) :: rest, i, v =>
    if i < a then if v = 0 then (a, w) :: rest else (i, v) :: (a, w) :: rest
    else if i = a then if v = 0 then rest else (i, v) :: rest
    else (a, w) :: Memory.write rest i v

/-- The entries from index `i` on, in order, as a record gives them (R129). -/
def Memory.ofListFrom (i : Nat) : List Int → Memory
  | [] => []
  | v :: rest => if v = 0 then Memory.ofListFrom (i + 1) rest else (i, v) :: Memory.ofListFrom (i + 1) rest

/-- The ring of a record (R129). -/
def Memory.ofList (l : List Int) : Memory := Memory.ofListFrom 0 l

/-- The canonical form, every index at least `lo`. -/
def Memory.wfFrom : Nat → Memory → Bool
  | _, [] => true
  | lo, (a, v) :: rest => decide (lo ≤ a) && decide (v ≠ 0) && Memory.wfFrom (a + 1) rest

/-- The canonical form: indexes strictly rising, no entry 0. -/
def Memory.wf (m : Memory) : Bool := Memory.wfFrom 0 m

/-- Every listed index is below `n`. -/
def Memory.within (n : Nat) (m : Memory) : Bool := m.all fun e => decide (e.1 < n)

/-- `EchoRead(i)`: the index is reduced with the mask (R55). -/
def echoRead (P : Params) (s : State) (i : Nat) : Int := s.echo.read (i &&& P.echoMask)

/-- `EchoWrite(i, v)` (R55), on the ring alone. -/
def echoWritten (P : Params) (s : State) (i : Nat) (v : Int) : Memory := s.echo.write (i &&& P.echoMask) v

/-- `RomRead(w, i)` of a waveform of the store: none at an index at or past `WLen(w)` or the data's end (R53, R164). -/
def romRead (w : Waveform) (i : Nat) : Option Byte := if i < w.length then w.data[i]? else none

end Sys2Proof.Machine
end

