-- ==== Sys2Proof/Machine/Derive.lean ====
section
/-! DEFINITION. Derive: the §4.2 computations, recalc_volume and recalc_increment, and the operations that re-run
them, RECALC_ALL and SET_RATE (41_parameter_derivation.md). -/

namespace Sys2Proof.Machine

/-- `recalc_volume(c)` (R121). -/
def recalcVolume (P : Params) (c : Channel) (s : State) : State :=
  s.setCh c { s.ch c with volumeScaled := P.attenTable (s.ch c).volume <<< 4 }

/-- R122: the waveform a channel without one is given. -/
def pickIndex (P : Params) (c : Channel) (period : BitVec 10) : Nat :=
  if P.squareThreshold ≤ period.toNat then 0 else P.instrumentIndex c

/-- R122: a channel without a waveform is given one and its position is 0; an assignment is never replaced. -/
def pickWaveform (P : Params) (c : Channel) (s : State) : State :=
  match (s.ch c).waveformRef with
  | some _ => s
  | none => s.setCh c { s.ch c with waveformRef := some (pickIndex P c (s.ch c).period), position := 0 }

/-- R123: the waveform `w` of channel c, if it is in the store. -/
def assignedWaveform (s : State) (c : Channel) : Option Waveform :=
  (s.ch c).waveformRef.bind fun w => s.waveStore[w]?

/-- R123: the increment of the assigned waveform; kept where `WPer = 0`. -/
def deriveIncrement (c : Channel) (s : State) : Result State :=
  match assignedWaveform s c with
  | none => raise .romIndex s
  | some w =>
    if w.periodCount = 0 then .next s
    else if 2 ^ 31 ≤ w.length * s.clockIncrement then raise .arithRange s
    else
      .next (s.setCh c { s.ch c with
        increment := w.length * s.clockIncrement / (s.ch c).period.toNat / w.periodCount })

/-- `recalc_increment(c)` (R122, R123). -/
def recalcIncrement (P : Params) (c : Channel) (s : State) : Result State :=
  if (s.ch c).inert then .next s else deriveIncrement c (pickWaveform P c s)

/-- `Rederive(c)` (R108): the volume, then the increment. -/
def rederive (P : Params) (c : Channel) (s : State) : Result State := recalcIncrement P c (recalcVolume P c s)

/-- One pass of RECALC_ALL's loop (R127): the increment, then the volume. -/
def recalcChannel (P : Params) (c : Channel) (s : State) : Result State :=
  andThen (recalcIncrement P c s) fun s => .next (recalcVolume P c s)

/-- RECALC_ALL on any state (R127): the channels in order. -/
def recalcAll (P : Params) (s : State) : Result State :=
  andThen (recalcChannel P 0 s) fun s =>
  andThen (recalcChannel P 1 s) fun s =>
  andThen (recalcChannel P 2 s) fun s =>
  recalcChannel P 3 s

/-- SET_RATE(r) on any state (R128). -/
def setRate (P : Params) (rate : Nat) (s : State) : Result State :=
  if rate = 0 then raise .badRate s else recalcAll P (s.setRate rate (P.clockIncrementAt rate))

/-- The meaning of RECALC_ALL. -/
def execRecalcAll (s : State) : Result State := whenReady s (recalcAll Config.params)

/-- The meaning of SET_RATE. -/
def execSetRate (rate : Nat) (s : State) : Result State := whenReady s (setRate Config.params rate)

end Sys2Proof.Machine
end

