-- ==== Sys2Proof/Machine/Lifecycle.lean ====
section
/-! DEFINITION. Lifecycle: INIT, the block's only reset (R220), and LOAD_STATE (R129). -/

namespace Sys2Proof.Machine

/-- The assignments of INIT (R220), before its RECALC_ALL. The host's part of the state is left as it is (log 17). -/
def initialState (P : Params) (rate : Nat) (enh : Bool) (store : List Waveform) (s : State) : State :=
  { s with
    chan := Quad.all ChannelState.reset
    lastLatch := 0x00
    stereoMask := P.stereoReset
    lfsr := 1
    echo := []
    writeCursor := 0
    clockIncrement := P.clockIncrementAt rate
    outputSampleRate := rate
    enhancementEnabled := enh
    waveStore := store
    initialised := true
    fault := none }

/-- INIT on any state without a fault (R220). -/
def initialise (P : Params) (rate : Nat) (enh : Bool) (store : List Waveform) (s : State) : Result State :=
  if rate = 0 ∨ P.clockTooFast then raise .badRate s else recalcAll P (initialState P rate enh store s)

/-- The assignments of LOAD_STATE (R129): every element of R21 to R32; the configuration, the fault record and
the host's part are kept. -/
def loadedState (r : SavedState) (s : State) : State :=
  { s with
    chan := ⟨loadedChannel r.chan.c0, loadedChannel r.chan.c1, loadedChannel r.chan.c2, loadedChannel r.chan.c3⟩
    lastLatch := BitVec.ofInt 8 r.lastLatch
    stereoMask := BitVec.ofInt 8 r.stereoMask
    lfsr := BitVec.ofInt 17 r.lfsr
    echo := Memory.ofList r.echo
    writeCursor := r.writeCursor.toNat }

/-- LOAD_STATE on any state (R129). -/
def loadState (P : Params) (r : SavedState) (s : State) : Result State :=
  if acceptsRecord P s.waveStore r then .next (loadedState r s) else raise .badState s

/-- The meaning of INIT: the one operation that needs no earlier INIT (R222). -/
def execInit (rate : Nat) (enh : Bool) (store : List Waveform) (s : State) : Result State :=
  unlessFaulted s (initialise Config.params rate enh store)

/-- The meaning of LOAD_STATE. -/
def execLoadState (saved : SavedState) (s : State) : Result State := whenReady s (loadState Config.params saved)

end Sys2Proof.Machine
end

