-- ==== Sys2Proof/Machine/Registers.lean ====
section
/-! DEFINITION. Registers: the operations of the two write ports (40_protocol_decoder.md). -/

namespace Sys2Proof.Machine

/-- `AttackTest(c, old, new)` (R107). -/
def attackTest (c : Channel) (old new : BitVec 4) (s : State) : State :=
  if isAttack old new then s.setCh c { s.ch c with waveformRef := none } else s

/-- `SetVolume(c, v)` (R102). -/
def setVolume (P : Params) (c : Channel) (v : BitVec 4) (s : State) : Result State :=
  rederive P c (attackTest c (s.ch c).volume v (s.setCh c { s.ch c with volume := v }))

/-- `period[c] <- p`. -/
def setPeriod (c : Channel) (p : BitVec 10) (s : State) : State := s.setCh c { s.ch c with period := p }

/-- R104: a period latch for channel 3 reseeds the LFSR to 1. -/
def reseed (c : Channel) (s : State) : State := if c = 3 then s.setLfsr 1 else s

/-- VOL_LATCH on any state (R101, R103). -/
def volLatch (P : Params) (c : Channel) (d : BitVec 4) (s : State) : Result State :=
  andThen (setVolume P c (storedVolume d) (prologue .reg (volLatchByte c d) s)) fun s =>
  .next (s.setLastLatch (volLatchByte c d))

/-- PER_LATCH on any state (R101, R104). -/
def perLatch (P : Params) (c : Channel) (p : BitVec 4) (s : State) : Result State :=
  let s := prologue .reg (perLatchByte c p) s
  let s := setPeriod c (withPeriodLow (s.ch c).period p) s
  rederive P c ((reseed c s).setLastLatch (perLatchByte c p))

/-- VOL_CONT on any state (R101, R105): the channel is the latched one (log 6). -/
def volCont (P : Params) (x : BitVec 3) (d : BitVec 4) (s : State) : Result State :=
  setVolume P (latchedChannel s.lastLatch) (storedVolume d) (prologue .reg (volContByte x d) s)

/-- PER_CONT on any state (R101, R106): the channel is the latched one; the LFSR is never reseeded (log 6). -/
def perCont (P : Params) (x : BitVec 1) (p : BitVec 6) (s : State) : Result State :=
  let c := latchedChannel s.lastLatch
  let s := prologue .reg (perContByte x p) s
  rederive P c (setPeriod c (withPeriodHigh (s.ch c).period p) s)

/-- WRITE_STEREO on any state (R110). -/
def writeStereo (b : Byte) (s : State) : Result State := .next ((prologue .stereo b s).setStereoMask (storedMask b))

/-- The meaning of VOL_LATCH. -/
def execVolLatch (c : Channel) (d : BitVec 4) (s : State) : Result State := whenReady s (volLatch Config.params c d)

/-- The meaning of PER_LATCH. -/
def execPerLatch (c : Channel) (p : BitVec 4) (s : State) : Result State := whenReady s (perLatch Config.params c p)

/-- The meaning of VOL_CONT. -/
def execVolCont (x : BitVec 3) (d : BitVec 4) (s : State) : Result State := whenReady s (volCont Config.params x d)

/-- The meaning of PER_CONT. -/
def execPerCont (x : BitVec 1) (p : BitVec 6) (s : State) : Result State := whenReady s (perCont Config.params x p)

/-- The meaning of WRITE_STEREO. -/
def execWriteStereo (r l : BitVec 4) (s : State) : Result State :=
  whenReady s (writeStereo (stereoByte r l))

end Sys2Proof.Machine
end

