-- ==== Sys2Proof/Machine/Mix.lean ====
section
/-! DEFINITION. Mix: the echo filter and the stereo attenuator (43_tick_synthesis.md §4, §5). -/

namespace Sys2Proof.Machine

/-- The channel contributions `p[0..3]` of one TICK (R160). -/
abbrev Mix := Quad Int

/-- `p` after the echo stage (R170): the oldest entry is added to channel 0, then both are scaled. -/
def echoMix (P : Params) (p : Mix) (s : State) : Mix :=
  { p with
    c0 := P.echoScale (p.c0 + echoRead P s ((s.writeCursor + 1) &&& P.echoMask))
    c1 := P.echoScale p.c1 }

/-- The entry `EchoStage` stores, of the contributions after scaling (R170). -/
def echoEntry (p : Mix) : Int := shiftDown (p.c0 + p.c1) 1

/-- `EchoStage(p)` (R170). -/
def echoStage (P : Params) (p : Mix) (s : State) : State × Mix :=
  let q := echoMix P p s
  (s.setEcho (echoWritten P s s.writeCursor (echoEntry q)) ((s.writeCursor + 1) &&& P.echoMask), q)

/-- The echo stage runs only when the enhancement is on (R160). -/
def enhance (P : Params) (p : Mix) (s : State) : State × Mix :=
  if s.enhancementEnabled then echoStage P p s else (s, p)

/-- What one channel adds to the left and the right (R172). -/
def channelPan (mask : Byte) (c : Channel) (p : Int) : Int × Int :=
  match leftEnable mask c, rightEnable mask c with
  | true, true => (p, p)
  | true, false => (p, shiftDown p 2)
  | false, true => (shiftDown p 2, p)
  | false, false => (shiftDown p 2, shiftDown p 2)

/-- `StereoMix(p)` (R172). -/
def stereoMix (mask : Byte) (p : Mix) : Int × Int :=
  let pan := fun c => channelPan mask c (p.get c)
  ((pan 0).1 + (pan 1).1 + (pan 2).1 + (pan 3).1, (pan 0).2 + (pan 1).2 + (pan 2).2 + (pan 3).2)

end Sys2Proof.Machine
end

