-- ==== Sys2Proof/Machine/Noise.lean ====
section
/-! DEFINITION. Noise: the 17-bit LFSR noise generator (42_noise_generator.md) and its sample (R168). -/

namespace Sys2Proof.Machine

/-- `NoiseRate()` (R140). -/
def noiseRate (s : State) : Nat :=
  let m := noiseMode (s.ch 3).period
  if m = 3 then
    if 0 < (s.ch 2).period.toNat then s.clockIncrement / (s.ch 2).period.toNat else s.clockIncrement <<< 3
  else s.clockIncrement <<< (3 - m)

/-- `LfsrStep()` on the register (R142); `feedback` is bit 2 of `period[3]`. -/
def lfsrStep (feedback : Bool) (x : BitVec 17) : BitVec 17 :=
  let x := x ^^^ ((x &&& 1) <<< 16)
  let x := if feedback then x ^^^ (((x >>> 3) &&& 1) <<< 13) else x
  x >>> 1

/-- The loop of `NoiseAdvance()` (R143), on the phase and the register: at most `fuel` passes. -/
def noiseLoop (feedback : Bool) : Nat → Nat → BitVec 17 → Nat × BitVec 17
  | 0, phase, x => (phase, x)
  | fuel + 1, phase, x =>
    if 0x400 ≤ phase then noiseLoop feedback fuel (phase - 0x400) (lfsrStep feedback x) else (phase, x)

/-- `NoiseAdvance()` (R143): the phase is `position[3]` (R31). A pass takes 0x400 off the phase, so `phase / 0x400`
passes end the loop. -/
def noiseAdvance (s : State) : Result State :=
  let phase := (s.ch 3).position + noiseRate s
  if 2 ^ 31 ≤ phase then raise .arithRange (s.setCh 3 { s.ch 3 with position := phase })
  else
    let r := noiseLoop (feedbackSelect (s.ch 3).period) (phase / 0x400) phase s.lfsr
    .next ((s.setCh 3 { s.ch 3 with position := r.1 }).setLfsr r.2)

/-- R144, R168: plus or minus `volume_scaled[3]` by the output bit. -/
def noiseValue (s : State) : Int :=
  if noiseBit s.lfsr then ((s.ch 3).volumeScaled : Int) else -((s.ch 3).volumeScaled : Int)

/-- `NoiseSample()` (R168): the value is taken, then the generator advances. -/
def noiseSample (s : State) : Result (State × Int) :=
  andThen (noiseAdvance s) fun t => .next (t, noiseValue s)

end Sys2Proof.Machine
end

