-- ==== Sys2Proof/Machine/Tone.lean ====
section
/-! DEFINITION. Tone: the waveform synthesizer of channels 0 to 2 (43_tick_synthesis.md §2). -/

namespace Sys2Proof.Machine

/-- How the rewind loop of R162 ends. -/
inductive Rewound where
  /-- The index is below the length. -/
  | inside (position : Nat)
  /-- The position went below 0. -/
  | negative
  /-- The loop does not end. -/
  | endless
  deriving DecidableEq, Repr

/-- The rewind loop (R162) on a position, for a waveform of length `L` and loop distance `D`: at most `fuel`
passes. -/
def rewindLoop (P : Params) (L D : Nat) : Nat → Nat → Rewound
  | 0, _ => .endless
  | fuel + 1, pos =>
    if pos >>> 10 < L then .inside pos
    else if D = 0 then .endless
    else if pos < D <<< 10 then .negative
    else rewindLoop P L D fuel (P.loopRemask (pos - D <<< 10))

/-- The rewind (R162). Each pass takes at least 1 off the integer index (R163 Q1), so index + 1 passes end it. -/
def rewind (P : Params) (w : Waveform) (pos : Nat) : Rewound :=
  rewindLoop P w.length w.loopDistance ((pos >>> 10) + 1) pos

/-- R164: `(volume_scaled * (data - 128)) >> 4`, the shift arithmetic. -/
def scaledSample (volumeScaled : Nat) (sample : Byte) : Int :=
  shiftDown ((volumeScaled : Int) * ((sample.toNat : Int) - 128)) 4

/-- R165: the phase advances by the increment, and must stay below 2^31. -/
def advancePhase (c : Channel) (s : State) : Result State :=
  let t := s.setCh c { s.ch c with position := (s.ch c).position + (s.ch c).increment }
  if 2 ^ 31 ≤ (t.ch c).position then raise .arithRange t else .next t

/-- R164, R165: the ROM read at the position, and the advance. -/
def readAndAdvance (c : Channel) (w : Waveform) (s : State) : Result (State × Int) :=
  match romRead w ((s.ch c).position >>> 10) with
  | none => raise .romIndex s
  | some b => andThen (advancePhase c s) fun t => .next (t, scaledSample (s.ch c).volumeScaled b)

/-- `ToneRead(c)` (R162 to R165). -/
def toneRead (P : Params) (c : Channel) (s : State) : Result (State × Int) :=
  match assignedWaveform s c with
  | none => raise .romIndex s
  | some w =>
    match rewind P w (s.ch c).position with
    | .endless => .fault .stuck
    | .negative => raise .romIndex s
    | .inside pos => readAndAdvance c w (s.setCh c { s.ch c with position := pos })

/-- `ToneSample(c)` (R161): the four paths. -/
def toneSample (P : Params) (c : Channel) (s : State) : Result (State × Int) :=
  if (s.ch c).silent then .next (s, 0)
  else if (s.ch c).bypassed then .next (s, ((s.ch c).volumeScaled : Int))
  else if (s.ch c).waveformRef = none then .next (s, 0)
  else toneRead P c s

end Sys2Proof.Machine
end

