-- ==== Sys2Proof/Machine/Tick.lean ====
section
/-! DEFINITION. Tick: the TICK operation (43_tick_synthesis.md R160). -/

namespace Sys2Proof.Machine

/-- The last stages of TICK: echo, stereo mix, accumulation, return (R160, R174). -/
def mixDown (P : Params) (p : Mix) (s : State) : State :=
  let e := enhance P p s
  let out := stereoMix e.1.stereoMask e.2
  e.1.deliver out.1 out.2

/-- TICK on any state (R160). -/
def tick (P : Params) (s : State) : Result State :=
  andThen (toneSample P 0 s) fun a =>
  andThen (toneSample P 1 a.1) fun b =>
  andThen (toneSample P 2 b.1) fun c =>
  andThen (noiseSample c.1) fun n =>
  .next (mixDown P ⟨a.2, b.2, c.2, n.2⟩ n.1)

/-- The meaning of TICK. -/
def execTick (s : State) : Result State := whenReady s (tick Config.params)

end Sys2Proof.Machine
end

