-- ==== Sys2Proof/Machine/Dispatch.lean ====
section
/-! DEFINITION. Dispatch: one arm per constructor of Instr, one direct call of its meaning. -/

namespace Sys2Proof.Machine

def exec (i : Instr) (s : State) : Host.Outcome State Fault Refusal :=
  match i with
  | .volLatch c d => Sys2Proof.Machine.execVolLatch c d s
  | .perLatch c p => Sys2Proof.Machine.execPerLatch c p s
  | .volCont x d => Sys2Proof.Machine.execVolCont x d s
  | .perCont x p => Sys2Proof.Machine.execPerCont x p s
  | .writeStereo r l => Sys2Proof.Machine.execWriteStereo r l s
  | .tick => Sys2Proof.Machine.execTick s
  | .init rate enh store => Sys2Proof.Machine.execInit rate enh store s
  | .setRate rate => Sys2Proof.Machine.execSetRate rate s
  | .recalcAll => Sys2Proof.Machine.execRecalcAll s
  | .loadState saved => Sys2Proof.Machine.execLoadState saved s

end Sys2Proof.Machine
end

