-- ==== Sys2Proof/Machine/Step.lean ====
section
/-! DEFINITION. Step: one step of the machine: the oldest operation the host has issued is decoded and performed
(R60, R75, R200). The block has no program counter (R36). -/

namespace Sys2Proof.Machine

/-- The oldest pending operation is taken, decoded with the `last_latch` of this moment (R75), and performed;
with nothing pending the block holds its state (R217). -/
def step (s : State) : Host.Outcome State Fault Refusal :=
  match s.pending with
  | [] => idle s
  | r :: rest => exec (decode s.lastLatch r) (s.setPending rest)

/-- `s` with the operation whose bits are `w` issued ahead of every pending one, which is where `step` looks
(log 4, log 5). -/
def State.withFetchWord (s : State) (nbits w : Nat) : State :=
  match tableRequest nbits w with
  | some r => s.setPending (r :: s.pending)
  | none => s

end Sys2Proof.Machine
end

