-- ==== Sys2Proof/Safety.lean ====
section
/-! DEFINITION. Safety: the terms the claims are stated in: which states are ready, what lets a re-derivation or a
tone channel complete, what each leaves (as relations, beside the functions that compute it), and the invariants. -/

namespace Sys2Proof.Machine

/-- An operation may run: the instance is initialised and no fault is recorded (R203, R222). -/
def State.Ready (s : State) : Prop := s.fault = none ∧ s.initialised = true

/-- The waveform index recalc_increment works with on channel c: the assigned one, else the picked one (R122). -/
def waveformIndex (P : Params) (c : Channel) (a : ChannelState) : Nat :=
  match a.waveformRef with
  | some w => w
  | none => if P.squareThreshold ≤ a.period.toNat then 0 else P.instrumentIndex c

/-- recalc_increment raises no fault on channel c when it holds `a`: the channel is inert, or its waveform is in
the store and the product is in range or not computed (R122, R123). -/
def Derivable (P : Params) (s : State) (c : Channel) (a : ChannelState) : Prop :=
  a.period = 0 ∨ ∃ w, s.waveStore[waveformIndex P c a]? = some w ∧
    (w.periodCount = 0 ∨ w.length * s.clockIncrement < 2 ^ 31)

/-- recalc_increment raises `r` on channel c when it holds `a`: the waveform is outside the store, or the product
reaches 2^31 (R123). -/
def DerivationRaises (P : Params) (s : State) (c : Channel) (a : ChannelState) (r : FaultReason) : Prop :=
  a.period ≠ 0 ∧
    ((r = .romIndex ∧ s.waveStore[waveformIndex P c a]? = none) ∨
      (r = .arithRange ∧ ∃ w, s.waveStore[waveformIndex P c a]? = some w ∧ w.periodCount ≠ 0 ∧
        2 ^ 31 ≤ w.length * s.clockIncrement))

/-- What recalc_volume and recalc_increment make of a channel c that holds `a`, with the store and the clock
increment of `s` (R121, R122, R123): every field of the result `b`, and that nothing faulted. -/
structure Rederived (P : Params) (s : State) (c : Channel) (a b : ChannelState) : Prop where
  volume : b.volume = a.volume
  period : b.period = a.period
  volumeScaled : b.volumeScaled = P.attenTable a.volume * 2 ^ 4
  inert : a.period = 0 → b.waveformRef = a.waveformRef ∧ b.position = a.position ∧ b.increment = a.increment
  waveform : a.period ≠ 0 → b.waveformRef = some (waveformIndex P c a)
  derivable : Derivable P s c a
  position : a.period ≠ 0 → b.position = if a.waveformRef = none then 0 else a.position
  increment : a.period ≠ 0 → ∀ w, s.waveStore[waveformIndex P c a]? = some w →
    b.increment = if w.periodCount = 0 then a.increment
      else w.length * s.clockIncrement / a.period.toNat / w.periodCount

/-- A channel just before SetVolume re-derives it: the stored volume is the inverse of the wire nibble, and a jump
of at least three steps louder has cleared the waveform (R72, R102, R107). -/
def withVolume (d : BitVec 4) (a : ChannelState) : ChannelState :=
  { a with
    volume := ~~~d
    waveformRef := if a.volume.toNat + 2 < (~~~d).toNat then none else a.waveformRef }

/-- A channel whose period bits 3:0 have been replaced (R104). -/
def withLowPeriod (p : BitVec 4) (a : ChannelState) : ChannelState :=
  { a with period := a.period.extractLsb' 4 6 ++ p }

/-- A channel whose period bits 9:4 have been replaced (R106). -/
def withHighPeriod (p : BitVec 6) (a : ChannelState) : ChannelState :=
  { a with period := p ++ a.period.extractLsb' 0 4 }

/-- The channel a register form writes and what that channel holds just before its re-derivation (R103 to R106). -/
def registerTarget (s : State) : Instr → Option (Channel × ChannelState)
  | .volLatch c d => some (c, withVolume d (s.ch c))
  | .perLatch c p => some (c, withLowPeriod p (s.ch c))
  | .volCont _ d => some (latchedChannel s.lastLatch, withVolume d (s.ch (latchedChannel s.lastLatch)))
  | .perCont _ p => some (latchedChannel s.lastLatch, withHighPeriod p (s.ch (latchedChannel s.lastLatch)))
  | _ => none

/-- The events an operation emits: the prologue of its write, or none (R101, R127, R160, R220). -/
def prologueEvents : Request → List Event
  | .writeReg b => [.flush, .trace .reg b]
  | .writeStereo b => [.flush, .trace .stereo b]
  | _ => []

/-- The rewind loop as a relation (R162): from a position below the length nothing is done; else one loop distance
is taken off, which must not go below 0, the result is re-masked, and so on. -/
inductive Rewinds (P : Params) (w : Waveform) : Nat → Nat → Prop where
  | stop (pos : Nat) : pos >>> 10 < w.length → Rewinds P w pos pos
  | pass (pos out : Nat) : w.length ≤ pos >>> 10 → w.loopDistance ≠ 0 → w.loopDistance * 2 ^ 10 ≤ pos →
      Rewinds P w (P.loopRemask (pos - w.loopDistance * 2 ^ 10)) out → Rewinds P w pos out

/-- The rewind goes below 0 (R162, R206): from an index at or past the length the loop distance is more than the
position, after no or more passes. -/
inductive RewindsBelow (P : Params) (w : Waveform) : Nat → Prop where
  | fall (pos : Nat) : w.length ≤ pos >>> 10 → w.loopDistance ≠ 0 → pos < w.loopDistance * 2 ^ 10 →
      RewindsBelow P w pos
  | pass (pos : Nat) : w.length ≤ pos >>> 10 → w.loopDistance ≠ 0 → w.loopDistance * 2 ^ 10 ≤ pos →
      RewindsBelow P w (P.loopRemask (pos - w.loopDistance * 2 ^ 10)) → RewindsBelow P w pos

/-- ToneRead of a channel that holds `a` and waveform `w` (R162 to R165): the contribution is `p`, the position
after is `next`. -/
def ToneReads (P : Params) (w : Waveform) (a : ChannelState) (p : Int) (next : Nat) : Prop :=
  ∃ pos b, Rewinds P w a.position pos ∧ w.data[pos >>> 10]? = some b ∧
    p = ((a.volumeScaled : Int) * ((b.toNat : Int) - 128)) / 2 ^ 4 ∧ next = pos + a.increment

/-- ToneSample of a channel that holds `a` (R161): the four paths. -/
def ToneSamples (P : Params) (s : State) (a : ChannelState) (p : Int) (next : Nat) : Prop :=
  if a.volumeScaled = 0 then p = 0 ∧ next = a.position
  else if a.period.toNat ≤ 4 then p = a.volumeScaled ∧ next = a.position
  else match a.waveformRef with
    | none => p = 0 ∧ next = a.position
    | some k => ∃ w, s.waveStore[k]? = some w ∧ ToneReads P w a p next

/-- ToneSample completes on a channel that holds `a`: it does not read the ROM, or its waveform is in the store, the
rewind reaches an index with data, and the advance stays below 2^31 (R161 to R165). A well-formed waveform (R52) with
room for the advance is one case of it. -/
def Playable (P : Params) (s : State) (a : ChannelState) : Prop :=
  a.volumeScaled = 0 ∨ a.period.toNat ≤ 4 ∨ a.waveformRef = none ∨
    ∃ k w p next, a.waveformRef = some k ∧ s.waveStore[k]? = some w ∧ ToneReads P w a p next ∧ next < 2 ^ 31

/-- NoiseAdvance completes: the phase has room below 2^31 (R143). -/
def NoiseInRange (s : State) : Prop := (s.ch 3).position + noiseRate s < 2 ^ 31

/-- A record's channel is within the widths of 10_state.md, and its waveform in the store (R129). -/
def ChannelFits (store : List Waveform) (a : SavedChannel) : Prop :=
  (0 ≤ a.volume ∧ a.volume < 16) ∧ (0 ≤ a.period ∧ a.period < 1024) ∧
    (0 ≤ a.position ∧ a.position < 2 ^ 31) ∧ 0 ≤ a.increment ∧
    (0 ≤ a.volumeScaled ∧ a.volumeScaled ≤ 0x1000) ∧
    ∀ k, a.waveformRef = some k → 0 ≤ k ∧ k < store.length

/-- A record LOAD_STATE takes (R129). -/
def RecordFits (P : Params) (store : List Waveform) (r : SavedState) : Prop :=
  (∀ c, ChannelFits store (r.chan.get c)) ∧ (0 ≤ r.lastLatch ∧ r.lastLatch < 256) ∧
    (0 ≤ r.stereoMask ∧ r.stereoMask < 256) ∧ (0 ≤ r.lfsr ∧ r.lfsr < 2 ^ 17) ∧
    r.echo.length = P.echoLen ∧ 0 ≤ r.writeCursor ∧ r.writeCursor < P.echoLen

/-- A channel holds exactly what a record's channel says (R129). -/
def ChannelLoaded (a : SavedChannel) (b : ChannelState) : Prop :=
  (b.volume.toNat : Int) = a.volume ∧ (b.period.toNat : Int) = a.period ∧
    b.waveformRef.map Int.ofNat = a.waveformRef ∧ (b.position : Int) = a.position ∧
    (b.increment : Int) = a.increment ∧ (b.volumeScaled : Int) = a.volumeScaled

/-- What every state the machine is in meets (10_state.md §7, R27, R29, R32, R33, R40, R129): the echo RAM is in
canonical form inside its ring, the cursor is in the ring, every position is below 2^31, every scaled volume is at
most 0x1000, every waveform reference is in the store, no fault is recorded, and the clock increment is that of
the rate. -/
structure StateInv (P : Params) (s : State) : Prop where
  echoForm : s.echo.wf = true
  echoWithin : s.echo.within P.echoLen = true
  cursor : s.writeCursor < P.echoLen
  position : ∀ c, (s.ch c).position < 2 ^ 31
  scaled : ∀ c, (s.ch c).volumeScaled ≤ 0x1000
  inStore : ∀ c k, (s.ch c).waveformRef = some k → k < s.waveStore.length
  noFault : s.fault = none
  clock : s.initialised = true → 0 < s.outputSampleRate ∧ s.clockIncrement = P.clockIncrementAt s.outputSampleRate

/-- R130: a channel with a period has a waveform. -/
def Assigned (s : State) : Prop := ∀ c, (s.ch c).period ≠ 0 → (s.ch c).waveformRef ≠ none

/-- R29: every scaled volume is that of the channel's volume. -/
def Scaled (P : Params) (s : State) : Prop := ∀ c, (s.ch c).volumeScaled = P.attenTable (s.ch c).volume * 2 ^ 4

/-- Every volume is 0 and so are the scaled volumes and the echo ring (R221). -/
def Quiet (s : State) : Prop := (∀ c, (s.ch c).volume = 0 ∧ (s.ch c).volumeScaled = 0) ∧ s.echo = []

/-- R171: every echo entry is in the range of the default scale. -/
def EchoBounded (s : State) : Prop := ∀ i, -39322 ≤ s.echo.read i ∧ s.echo.read i ≤ 39013

/-- Every channel is silent and so is the echo ring (R221). -/
def AllSilent (s : State) : Prop := (∀ c, (s.ch c).volumeScaled = 0) ∧ s.echo = []

end Sys2Proof.Machine
end

