-- ==== Sys2Proof/Certificates/Slice0/Obligations.lean ====
section
/-! DEFINITION. Obligations: the statements for the provers, each a rule of spec/ or a property of the whole machine. -/

open Sys2Proof Sys2Proof.Machine

/-! ## Encoding -/

/-- R71, R73, R75: the request an operation is encoded as decodes to that operation, with every field, under any
`last_latch` that selects its form. -/
def Obligations.EncodeThenDecode : Prop :=
  ∀ (latch : Byte) (i : Instr), i.fits latch = true → decode latch (encode i) = i

/-- R75, R77: no bit of a request is lost, and what is decoded is a form `last_latch` selects. -/
def Obligations.DecodeThenEncode : Prop :=
  ∀ (latch : Byte) (r : Request), encode (decode latch r) = r ∧ (decode latch r).fits latch = true

/-- W9, V-D1, V-D9: words written out bit by bit from the byte formats. -/
def Obligations.FormatWordsDecode : Prop :=
  decode 0x00 (.writeReg 0b10110101) = .volLatch 1 5 ∧
  decode 0x00 (.writeReg 0b11001001) = .perLatch 2 9 ∧
  decode 0b10110101 (.writeReg 0b01110011) = .volCont 0b111 3 ∧
  decode 0b11001001 (.writeReg 0b01111111) = .perCont 1 0x3F ∧
  decode 0x00 (.writeStereo 0b01011010) = .writeStereo 5 0xA

/-- R75: a byte on REG is exactly one of four forms, by its own bits 7 and 4 and, when bit 7 is 0, by bit 4 of
`last_latch`. -/
def Obligations.RegByteIsOneOfFourForms : Prop :=
  ∀ latch b : Byte,
    (b &&& 0x90 = 0x90 → ∃ c d, decode latch (.writeReg b) = .volLatch c d) ∧
    (b &&& 0x90 = 0x80 → ∃ c p, decode latch (.writeReg b) = .perLatch c p) ∧
    (b &&& 0x80 = 0 → latch &&& 0x10 ≠ 0 → ∃ x d, decode latch (.writeReg b) = .volCont x d) ∧
    (b &&& 0x80 = 0 → latch &&& 0x10 = 0 → ∃ x p, decode latch (.writeReg b) = .perCont x p)

/-- R77: two continuation bytes that differ only in the ignored bits have the same effect, but for the raw byte in
the trace. -/
def Obligations.IgnoredBitsHaveNoEffect : Prop :=
  (∀ x x' d s t, exec (.volCont x d) s = .next t →
    exec (.volCont x' d) s = .next { t with events := s.events ++ [.flush, .trace .reg (volContByte x' d)] }) ∧
  (∀ x x' p s t, exec (.perCont x p) s = .next t →
    exec (.perCont x' p) s = .next { t with events := s.events ++ [.flush, .trace .reg (perContByte x' p)] })

/-! ## The step -/

/-- R60, R75, R200: when the host's oldest operation is the encoding of an instruction that `last_latch` selects,
the step runs exactly that instruction, with that operation taken. -/
def Obligations.StepRunsTheDecodedInstruction : Prop :=
  ∀ (s : State) (i : Instr) (rest : List Request), s.pending = encode i :: rest → i.fits s.lastLatch = true →
    step s = exec i { s with pending := rest }

/-- R200, R217: with no operation pending the block holds its whole state. -/
def Obligations.IdleStepHoldsTheState : Prop :=
  ∀ s : State, s.fault = none → s.pending = [] → step s = .next s

/-- R101: every write emits Flush and then Trace of its raw byte, and nothing else emits an event; the two are
emitted before anything can fault. -/
def Obligations.WritePrologueEvents : Prop :=
  ∀ (i : Instr) (s t : State),
    (exec i s = .next t → t.events = s.events ++ prologueEvents (encode i)) ∧
    (∀ r, exec i s = .fault (.raised r t) → t.events = s.events ++ prologueEvents (encode i))

/-! ## The register forms -/

/-- R103: VOL_LATCH completes where the re-derivation of its channel does, and does what its pseudocode says: the
channel is re-derived with the new volume, `last_latch` holds the byte, the prologue is emitted, nothing else
changes. -/
def Obligations.VolLatchResult : Prop :=
  ∀ (c : Channel) (d : BitVec 4) (s : State), s.Ready → Derivable Config.params s c (withVolume d (s.ch c)) →
    ∃ b, Rederived Config.params s c (withVolume d (s.ch c)) b ∧
      exec (.volLatch c d) s = .next { s with
        chan := s.chan.set c b
        lastLatch := volLatchByte c d
        events := s.events ++ [.flush, .trace .reg (volLatchByte c d)] }

/-- R104: PER_LATCH likewise, with period bits 3:0 replaced, and the LFSR reseeded to 1 for channel 3. -/
def Obligations.PerLatchResult : Prop :=
  ∀ (c : Channel) (p : BitVec 4) (s : State), s.Ready → Derivable Config.params s c (withLowPeriod p (s.ch c)) →
    ∃ b, Rederived Config.params s c (withLowPeriod p (s.ch c)) b ∧
      exec (.perLatch c p) s = .next { s with
        chan := s.chan.set c b
        lfsr := if c = 3 then 1 else s.lfsr
        lastLatch := perLatchByte c p
        events := s.events ++ [.flush, .trace .reg (perLatchByte c p)] }

/-- R105: VOL_CONT writes the volume of the channel in bits 6:5 of `last_latch`, which is not changed. -/
def Obligations.VolContResult : Prop :=
  ∀ (x : BitVec 3) (d : BitVec 4) (s : State) (c : Channel), s.Ready → c.val = s.lastLatch.toNat / 32 % 4 →
    Derivable Config.params s c (withVolume d (s.ch c)) →
    ∃ b, Rederived Config.params s c (withVolume d (s.ch c)) b ∧
      exec (.volCont x d) s = .next { s with
        chan := s.chan.set c b
        events := s.events ++ [.flush, .trace .reg (volContByte x d)] }

/-- R106: PER_CONT writes period bits 9:4 of the channel in bits 6:5 of `last_latch`; neither `last_latch` nor the
LFSR is changed, for no channel. -/
def Obligations.PerContResult : Prop :=
  ∀ (x : BitVec 1) (p : BitVec 6) (s : State) (c : Channel), s.Ready → c.val = s.lastLatch.toNat / 32 % 4 →
    Derivable Config.params s c (withHighPeriod p (s.ch c)) →
    ∃ b, Rederived Config.params s c (withHighPeriod p (s.ch c)) b ∧
      exec (.perCont x p) s = .next { s with
        chan := s.chan.set c b
        events := s.events ++ [.flush, .trace .reg (perContByte x p)] }

/-- R110: WRITE_STEREO stores the inverse of its byte and changes nothing else. -/
def Obligations.WriteStereoResult : Prop :=
  ∀ (r l : BitVec 4) (s : State), s.Ready →
    exec (.writeStereo r l) s = .next { s with
      stereoMask := ~~~r ++ ~~~l
      events := s.events ++ [.flush, .trace .stereo (r ++ l)] }

/-- R107: a volume write at least three steps louder clears the waveform, and one that is not leaves it; with a
period the cleared waveform is picked again at once, at position 0 (R108, R122). Channel 3 is no exception. -/
def Obligations.AttackRestartsTheWaveform : Prop :=
  ∀ (i : Instr) (s t : State) (c : Channel) (d : BitVec 4),
    (i = .volLatch c d ∨ (∃ x, i = .volCont x d) ∧ c = latchedChannel s.lastLatch) → exec i s = .next t →
    (t.ch c).volume = ~~~d ∧
    ((s.ch c).volume.toNat + 2 < (~~~d).toNat →
      if (s.ch c).period = 0 then (t.ch c).waveformRef = none ∧ (t.ch c).position = (s.ch c).position
      else (t.ch c).waveformRef = some (if Config.params.squareThreshold ≤ (s.ch c).period.toNat then 0
          else Config.params.instrumentIndex c) ∧ (t.ch c).position = 0) ∧
    (¬ (s.ch c).volume.toNat + 2 < (~~~d).toNat → ∀ k, (s.ch c).waveformRef = some k →
      (t.ch c).waveformRef = some k ∧ (t.ch c).position = (s.ch c).position)

/-- R80 `tone c, p`: a period latch and then a period continuation leave the whole ten-bit period. -/
def Obligations.TwoBytesSetTheWholePeriod : Prop :=
  ∀ (c : Channel) (lo : BitVec 4) (x : BitVec 1) (hi : BitVec 6) (s t u : State),
    exec (.perLatch c lo) s = .next t → exec (.perCont x hi) t = .next u → (u.ch c).period = hi ++ lo

/-- R123, R206: where a register form does not complete: its channel has a period and its waveform is outside the
store (RomIndex), or the product reaches 2^31 (ArithRange). R109 says that a register form faults only with
ArithRange; that it raises RomIndex too, as R123 gives recalc_increment and V-R7 shows, is the model's resolution
(log 19, DEDUCED). -/
def Obligations.RegisterFormFaults : Prop :=
  ∀ (i : Instr) (s : State) (c : Channel) (a : ChannelState), s.Ready → registerTarget s i = some (c, a) →
    a.period ≠ 0 →
    (s.waveStore[waveformIndex Config.params c a]? = none → ∃ left, exec i s = .fault (.raised .romIndex left)) ∧
    (∀ w, s.waveStore[waveformIndex Config.params c a]? = some w → w.periodCount ≠ 0 →
      2 ^ 31 ≤ w.length * s.clockIncrement → ∃ left, exec i s = .fault (.raised .arithRange left))

/-- The frame of the register forms (R102 to R108): the other channels, the stereo mask, every echo entry and the
cursor, the configuration, the totals and the returned pairs are unchanged; `last_latch` changes only by a latch
form, the LFSR only by PER_LATCH for channel 3; of the written channel, a volume form keeps the period and a period
form the volume. -/
def Obligations.RegisterFormFrame : Prop :=
  ∀ (i : Instr) (s t : State) (c : Channel) (a : ChannelState), registerTarget s i = some (c, a) →
    exec i s = .next t →
    (∀ e, e ≠ c → t.ch e = s.ch e) ∧ t.stereoMask = s.stereoMask ∧
    (∀ k, t.echo.read k = s.echo.read k) ∧ t.writeCursor = s.writeCursor ∧
    t.clockIncrement = s.clockIncrement ∧ t.outputSampleRate = s.outputSampleRate ∧
    t.enhancementEnabled = s.enhancementEnabled ∧ t.waveStore = s.waveStore ∧
    t.initialised = s.initialised ∧ t.fault = s.fault ∧ t.pending = s.pending ∧
    t.accLeft = s.accLeft ∧ t.accRight = s.accRight ∧ t.samples = s.samples ∧
    (t.ch c).volume = a.volume ∧ (t.ch c).period = a.period ∧
    ((∀ d, i ≠ .volLatch c d) → (∀ p, i ≠ .perLatch c p) → t.lastLatch = s.lastLatch) ∧
    ((∀ p, i ≠ .perLatch 3 p) → t.lfsr = s.lfsr)

/-! ## Derivation and the life cycle -/

/-- R127: RECALC_ALL completes where every channel's re-derivation does; it changes the channels alone, each to what
R121 to R123 say. -/
def Obligations.RecalcAllResult : Prop :=
  ∀ s : State, s.Ready → (∀ c, Derivable Config.params s c (s.ch c)) →
    ∃ q : Quad ChannelState, (∀ c, Rederived Config.params s c (s.ch c) (q.get c)) ∧
      exec .recalcAll s = .next { s with chan := q }

/-- R127: a RECALC_ALL after a RECALC_ALL changes nothing: it resets neither an assignment nor a position. -/
def Obligations.RecalcAllTwiceIsOnce : Prop :=
  ∀ s t : State, exec .recalcAll s = .next t → exec .recalcAll t = .next t

/-- R128: SET_RATE sets the rate and the clock increment and re-derives every channel with the new one; a rate of 0
raises BadRate. -/
def Obligations.SetRateResult : Prop :=
  ∀ (rate : Nat) (s : State), s.Ready →
    (rate = 0 → exec (.setRate rate) s = .fault (.raised .badRate { s with fault := some .badRate })) ∧
    (rate ≠ 0 →
      (∀ c, Derivable Config.params { s with clockIncrement := Config.params.chipClockHz * 32 / rate } c (s.ch c)) →
      ∃ q : Quad ChannelState,
        (∀ c, Rederived Config.params { s with clockIncrement := Config.params.chipClockHz * 32 / rate } c (s.ch c)
          (q.get c)) ∧
        exec (.setRate rate) s = .next { s with
          outputSampleRate := rate
          clockIncrement := Config.params.chipClockHz * 32 / rate
          chan := q })

/-- R127, R128, R123, R208: RECALC_ALL, and SET_RATE of a positive rate with the new clock increment, raise what the
first channel that is not derivable raises: RomIndex where its waveform is outside the store, ArithRange where the
product reaches 2^31. A channel that is not derivable raises one of the two. -/
def Obligations.RecalculationFaults : Prop :=
  (∀ (s : State) (c : Channel) (r : FaultReason), s.Ready → (∀ e, e < c → Derivable Config.params s e (s.ch e)) →
    DerivationRaises Config.params s c (s.ch c) r → ∃ left, exec .recalcAll s = .fault (.raised r left)) ∧
  (∀ (rate : Nat) (s u : State) (c : Channel) (r : FaultReason), s.Ready → rate ≠ 0 →
    u = { s with clockIncrement := Config.params.chipClockHz * 32 / rate } →
    (∀ e, e < c → Derivable Config.params u e (s.ch e)) → DerivationRaises Config.params u c (s.ch c) r →
    ∃ left, exec (.setRate rate) s = .fault (.raised r left)) ∧
  (∀ (P : Params) (s : State) (c : Channel) (a : ChannelState),
    ¬ Derivable P s c a ↔ ∃ r, DerivationRaises P s c a r)

/-- R220: INIT with a positive rate completes on any instance without a fault, initialised or not, and leaves every
element at the value the rule gives; a rate of 0, or a clock too fast, raises BadRate. -/
def Obligations.InitResult : Prop :=
  (∀ (rate : Nat) (enh : Bool) (store : List Waveform) (s : State), s.fault = none → rate ≠ 0 →
    exec (.init rate enh store) s = .next { s with
      outputSampleRate := rate
      enhancementEnabled := enh
      waveStore := store
      clockIncrement := Config.params.chipClockHz * 32 / rate
      chan := Quad.all ⟨0, 0, none, 0, 0, 0⟩
      lastLatch := 0x00
      stereoMask := Config.params.stereoReset
      lfsr := 1
      echo := []
      writeCursor := 0
      initialised := true
      fault := none }) ∧
  (∀ (enh : Bool) (store : List Waveform) (s : State), s.fault = none →
    exec (.init 0 enh store) s = .fault (.raised .badRate { s with fault := some .badRate })) ∧
  (∀ (P : Params) (rate : Nat) (enh : Bool) (store : List Waveform) (s : State), 2 ^ 31 ≤ P.chipClockHz * 32 →
    initialise P rate enh store s = .fault (.raised .badRate { s with fault := some .badRate }))

/-- The model's choice (log 1): `State.reset` is what INIT(44100, off, no waveforms) makes of a fresh instance. -/
def Obligations.InitMakesTheResetState : Prop :=
  exec (.init 44100 false []) State.fresh = .next State.reset

/-- R129, R29, R32: LOAD_STATE takes a record that fits and puts each element of R21 to R32 to the record's value,
keeping the configuration, the fault record and the host's part; any other record raises BadState. That a record with
a scaled volume above 0x1000 or a ring of another size than ECHO_LEN does not fit is the model's reading of R29 and
R32 (log 16, DEDUCED): R129 does not name these two among its checks. -/
def Obligations.LoadStateResult : Prop :=
  ∀ (r : SavedState) (s : State), s.Ready →
    (RecordFits Config.params s.waveStore r →
      ∃ (q : Quad ChannelState) (latch mask : Byte) (x : BitVec 17) (m : Memory) (k : Nat),
        exec (.loadState r) s = .next { s with
          chan := q, lastLatch := latch, stereoMask := mask, lfsr := x, echo := m, writeCursor := k } ∧
        (∀ c, ChannelLoaded (r.chan.get c) (q.get c)) ∧ (latch.toNat : Int) = r.lastLatch ∧
        (mask.toNat : Int) = r.stereoMask ∧ (x.toNat : Int) = r.lfsr ∧ (k : Int) = r.writeCursor ∧
        m.wf = true ∧ ∀ j, m.read j = r.echo.getD j 0) ∧
    (¬ RecordFits Config.params s.waveStore r →
      exec (.loadState r) s = .fault (.raised .badState { s with fault := some .badState }))

/-! ## TICK -/

/-- R160: TICK completes when the three tone channels and the noise phase do, and does its stages in order: the
contributions of R161 and R168, the echo stage of R170 if the enhancement is on, the stereo mix of R172, the
accumulation of R174; of the state only the positions, the LFSR, the ring with its cursor and the host's totals
change. -/
def Obligations.TickResult : Prop :=
  ∀ s : State, s.Ready → (∀ c : Channel, c ≠ 3 → Playable Config.params s (s.ch c)) → NoiseInRange s →
    ∃ (p q : Mix) (next : Quad Nat),
      (∀ c : Channel, c ≠ 3 → ToneSamples Config.params s (s.ch c) (p.get c) (next.get c)) ∧
      p.c3 = (if s.lfsr.getLsbD 0 then ((s.ch 3).volumeScaled : Int) else -((s.ch 3).volumeScaled : Int)) ∧
      next.c3 = ((s.ch 3).position + noiseRate s) % 0x400 ∧
      q = (if s.enhancementEnabled then { p with
          c0 := Config.params.echoScale (p.c0 + s.echo.read ((s.writeCursor + 1) % Config.params.echoLen))
          c1 := Config.params.echoScale p.c1 } else p) ∧
      exec .tick s = .next { s with
        chan := ⟨{ s.ch 0 with position := next.c0 }, { s.ch 1 with position := next.c1 },
          { s.ch 2 with position := next.c2 }, { s.ch 3 with position := next.c3 }⟩
        lfsr := (lfsrStep (feedbackSelect (s.ch 3).period))^[((s.ch 3).position + noiseRate s) / 0x400] s.lfsr
        echo := if s.enhancementEnabled then
            s.echo.write (s.writeCursor % Config.params.echoLen) ((q.c0 + q.c1) / 2) else s.echo
        writeCursor := if s.enhancementEnabled then (s.writeCursor + 1) % Config.params.echoLen else s.writeCursor
        accLeft := s.accLeft + (stereoMix s.stereoMask q).1
        accRight := s.accRight + (stereoMix s.stereoMask q).2
        samples := s.samples ++ [stereoMix s.stereoMask q] }

/-- R162, R163, W4: for a well-formed waveform the rewind ends, below the length, after taking off whole loop
distances of the integer index and no more of them than needed; a position already below the length is kept. -/
def Obligations.RewindLandsInside : Prop :=
  ∀ (P : Params) (w : Waveform) (pos : Nat), w.wf = true →
    ∃ out n, rewind P w pos = .inside out ∧ out >>> 10 < w.length ∧
      pos >>> 10 = (out >>> 10) + n * w.loopDistance ∧
      (n = 0 → out = pos) ∧ (n ≠ 0 → w.length ≤ (out >>> 10) + w.loopDistance)

/-- R204: a TICK that reads a waveform with loop distance 0 at or past its length has no completing step. -/
def Obligations.TickIsStuckOnEndlessRewind : Prop :=
  ∀ (s : State) (c : Channel) (k : Nat) (w : Waveform), s.Ready → c ≠ 3 → (∀ e, e < c → Playable Config.params s (s.ch e)) →
    (s.ch c).volumeScaled ≠ 0 → 4 < (s.ch c).period.toNat → (s.ch c).waveformRef = some k →
    s.waveStore[k]? = some w → w.loopDistance = 0 → w.length ≤ (s.ch c).position >>> 10 →
    exec .tick s = .fault .stuck

/-- R162, R164, R206: a TICK that reads a waveform outside the store, or one whose rewind goes below 0 (as it does
where the length is 0 and there is a loop distance), or whose rewind, of no or more passes, ends at an index its data
does not reach, raises RomIndex. -/
def Obligations.TickRomIndexFaults : Prop :=
  ∀ (s : State) (c : Channel) (k : Nat), s.Ready → c ≠ 3 → (∀ e, e < c → Playable Config.params s (s.ch e)) →
    (s.ch c).volumeScaled ≠ 0 → 4 < (s.ch c).period.toNat → (s.ch c).waveformRef = some k →
    (s.waveStore[k]? = none ∨
      ∃ w, s.waveStore[k]? = some w ∧
        ((w.length = 0 ∧ w.loopDistance ≠ 0) ∨ RewindsBelow Config.params w (s.ch c).position ∨
          ∃ pos, Rewinds Config.params w (s.ch c).position pos ∧ w.data.length ≤ pos >>> 10)) →
    ∃ left, exec .tick s = .fault (.raised .romIndex left)

/-- R165, R143, R208: a TICK raises ArithRange where the rewound position of a tone channel that reads the ROM plus its
increment reaches 2^31, the channels before it playing; and where all three tone channels play and the noise phase plus
the noise rate reaches 2^31. -/
def Obligations.TickArithRangeFaults : Prop :=
  (∀ (s : State) (c : Channel) (k : Nat) (w : Waveform) (p : Int) (next : Nat), s.Ready → c ≠ 3 →
    (∀ e, e < c → Playable Config.params s (s.ch e)) → (s.ch c).volumeScaled ≠ 0 → 4 < (s.ch c).period.toNat →
    (s.ch c).waveformRef = some k → s.waveStore[k]? = some w → ToneReads Config.params w (s.ch c) p next →
    2 ^ 31 ≤ next → ∃ left, exec .tick s = .fault (.raised .arithRange left)) ∧
  (∀ s : State, s.Ready → (∀ c : Channel, c ≠ 3 → Playable Config.params s (s.ch c)) →
    2 ^ 31 ≤ (s.ch 3).position + noiseRate s → ∃ left, exec .tick s = .fault (.raised .arithRange left))

/-- R140: the noise rate, case by case. -/
def Obligations.NoiseRateCases : Prop :=
  ∀ s : State,
    noiseRate s =
      if (s.ch 3).period.toNat % 4 = 3 then
        (if 0 < (s.ch 2).period.toNat then s.clockIncrement / (s.ch 2).period.toNat else s.clockIncrement * 8)
      else s.clockIncrement * 2 ^ (3 - (s.ch 3).period.toNat % 4)

/-- R142: one step of the LFSR, bit by bit. -/
def Obligations.LfsrStepBits : Prop :=
  ∀ (feedback : Bool) (x : BitVec 17),
    (lfsrStep feedback x).getLsbD 16 = false ∧
    (lfsrStep feedback x).getLsbD 15 = (x.getLsbD 16 ^^ x.getLsbD 0) ∧
    (lfsrStep feedback x).getLsbD 12 = (x.getLsbD 13 ^^ (feedback && x.getLsbD 3)) ∧
    ∀ i, i < 15 → i ≠ 12 → (lfsrStep feedback x).getLsbD i = x.getLsbD (i + 1)

/-- R143: each TICK steps the LFSR `floor((phase + rate) / 1024)` times with the feedback of that TICK, and leaves
the remainder as the phase; a phase that reaches 2^31 raises ArithRange before any step. -/
def Obligations.NoiseAdvancesOnEveryTick : Prop :=
  (∀ s t : State, exec .tick s = .next t →
    (s.ch 3).position + noiseRate s < 2 ^ 31 ∧
    (t.ch 3).position = ((s.ch 3).position + noiseRate s) % 1024 ∧
    t.lfsr = (lfsrStep ((s.ch 3).period.getLsbD 2))^[((s.ch 3).position + noiseRate s) / 1024] s.lfsr) ∧
  (∀ s : State, 2 ^ 31 ≤ (s.ch 3).position + noiseRate s →
    ∃ left, noiseAdvance s = .fault (.raised .arithRange left) ∧ left.lfsr = s.lfsr)

/-- R145: with the feedback bit clear and bit 16 clear, sixteen steps bring any state back. -/
def Obligations.SixteenStepsRotateBack : Prop :=
  ∀ x : BitVec 17, x.getLsbD 16 = false → (lfsrStep false)^[16] x = x

/-- R145, R146: from the seed 1 the cycles have length 16 and 434, and the two modes first differ at step 14. -/
def Obligations.SeedCycleLengths : Prop :=
  ((lfsrStep false)^[16] 1 = 1 ∧ ∀ n, 0 < n → n < 16 → (lfsrStep false)^[n] 1 ≠ 1) ∧
  ((lfsrStep true)^[434] 1 = 1 ∧ ∀ n, 0 < n → n < 434 → (lfsrStep true)^[n] 1 ≠ 1) ∧
  (∀ n, n < 14 → (lfsrStep false)^[n] 1 = (lfsrStep true)^[n] 1) ∧
  (lfsrStep false)^[14] 1 = 0x4 ∧ (lfsrStep true)^[14] 1 = 0x1004

/-- R172: each channel adds its contribution to an enabled side and a quarter of it, rounded down, to the other. -/
def Obligations.StereoMixSums : Prop :=
  ∀ (mask : Byte) (p : Mix),
    (stereoMix mask p).1 =
      (if mask.getLsbD 0 then p.c0 else p.c0 / 4) + (if mask.getLsbD 1 then p.c1 else p.c1 / 4) +
      (if mask.getLsbD 2 then p.c2 else p.c2 / 4) + (if mask.getLsbD 3 then p.c3 else p.c3 / 4) ∧
    (stereoMix mask p).2 =
      (if mask.getLsbD 4 then p.c0 else p.c0 / 4) + (if mask.getLsbD 5 then p.c1 else p.c1 / 4) +
      (if mask.getLsbD 6 then p.c2 else p.c2 / 4) + (if mask.getLsbD 7 then p.c3 else p.c3 / 4)

/-- R170, R55: a TICK with the enhancement on writes only the entry at the cursor and moves the cursor to the next
index of the ring; with it off neither is touched. -/
def Obligations.EchoRingAdvance : Prop :=
  ∀ s t : State, s.echo.wf = true → s.writeCursor < Config.params.echoLen → exec .tick s = .next t →
    (s.enhancementEnabled = true →
      (∀ i, i ≠ s.writeCursor → t.echo.read i = s.echo.read i) ∧
      t.writeCursor = (s.writeCursor + 1) % Config.params.echoLen) ∧
    (s.enhancementEnabled = false → t.echo = s.echo ∧ t.writeCursor = s.writeCursor)

/-- The frame of TICK (R160, R161, R36): every register of the bank, the waveform references, the increments and the
scaled volumes are unchanged, so are the configuration, the events and the fault record, and with the enhancement
off every echo entry. -/
def Obligations.TickFrame : Prop :=
  ∀ s t : State, exec .tick s = .next t →
    (∀ c, (t.ch c).volume = (s.ch c).volume ∧ (t.ch c).period = (s.ch c).period ∧
      (t.ch c).waveformRef = (s.ch c).waveformRef ∧ (t.ch c).increment = (s.ch c).increment ∧
      (t.ch c).volumeScaled = (s.ch c).volumeScaled) ∧
    t.lastLatch = s.lastLatch ∧ t.stereoMask = s.stereoMask ∧ t.clockIncrement = s.clockIncrement ∧
    t.outputSampleRate = s.outputSampleRate ∧ t.enhancementEnabled = s.enhancementEnabled ∧
    t.waveStore = s.waveStore ∧ t.initialised = s.initialised ∧ t.fault = s.fault ∧ t.events = s.events ∧
    t.pending = s.pending ∧
    (s.enhancementEnabled = false → ∀ i, t.echo.read i = s.echo.read i)

/-- R166: ToneSample of a channel depends on that channel and the store alone, and changes that channel's position
alone; so channel 3, the LFSR and the echo ring are neither read nor changed. -/
def Obligations.ToneSampleReadsOnlyItsChannel : Prop :=
  ∀ (P : Params) (c : Channel) (s t : State) (p : Int), toneSample P c s = .next (t, p) →
    t = s.setCh c { s.ch c with position := (t.ch c).position } ∧
    ∀ u : State, u.ch c = s.ch c → u.waveStore = s.waveStore →
      toneSample P c u = .next (u.setCh c (t.ch c), p)

/-- R172, R110: the stereo mask reaches nothing in a TICK but the returned pair and the totals. -/
def Obligations.StereoMaskReachesOnlyTheMix : Prop :=
  ∀ (s t : State) (mask : Byte), exec .tick s = .next t →
    ∃ left right, exec .tick { s with stereoMask := mask } = .next { t with
      stereoMask := mask
      accLeft := s.accLeft + left
      accRight := s.accRight + right
      samples := s.samples ++ [(left, right)] }

/-- R174: a TICK returns one pair and adds it to the caller's totals. -/
def Obligations.TickAccumulatesItsPair : Prop :=
  ∀ s t : State, exec .tick s = .next t →
    ∃ left right, t.samples = s.samples ++ [(left, right)] ∧ t.accLeft = s.accLeft + left ∧
      t.accRight = s.accRight + right

/-- R221: while every scaled volume is 0 and the ring holds only zeros, TICK completes and returns (0, 0), the ring
stays zero, and the noise generator still advances. -/
def Obligations.SilentTickReturnsZero : Prop :=
  ∀ s : State, s.Ready → AllSilent s → NoiseInRange s →
    ∃ t, exec .tick s = .next t ∧ t.samples = s.samples ++ [(0, 0)] ∧ t.accLeft = s.accLeft ∧
      t.accRight = s.accRight ∧ AllSilent t ∧
      t.lfsr = (lfsrStep ((s.ch 3).period.getLsbD 2))^[((s.ch 3).position + noiseRate s) / 1024] s.lfsr

/-- R221: INIT leaves every channel silent and without a waveform, and until a volume is written or a state is loaded
it stays so: every TICK returns (0, 0), and no other operation returns a pair. -/
def Obligations.SilentUntilAVolumeIsWritten : Prop :=
  (∀ (rate : Nat) (enh : Bool) (store : List Waveform) (s t : State), exec (.init rate enh store) s = .next t →
    Quiet t ∧ ∀ c, (t.ch c).waveformRef = none) ∧
  (∀ (i : Instr) (s t : State), Quiet s → (∀ c d, i ≠ .volLatch c d) → (∀ x d, i ≠ .volCont x d) →
    (∀ r, i ≠ .loadState r) → exec i s = .next t →
    Quiet t ∧ t.samples = s.samples ++ (if i = .tick then [(0, 0)] else []))

/-- R205: at 44100 Hz a well-formed waveform of at most 826909 samples never reaches 2^31, neither in the increment's
product nor in the position. -/
def Obligations.NoRangeFaultAtNominalRate : Prop :=
  ∀ (P : Params) (s : State) (c : Channel) (k : Nat) (w : Waveform), s.clockIncrement = 2597 →
    (s.ch c).waveformRef = some k → s.waveStore[k]? = some w → w.wf = true → w.length ≤ 826909 →
    (s.ch c).increment ≤ w.length * s.clockIncrement / (s.ch c).period.toNat →
    w.length * s.clockIncrement < 2 ^ 31 ∧
    ∃ t p, toneSample P c s = .next (t, p) ∧ ((s.ch c).position < 2 ^ 31 → (t.ch c).position < 2 ^ 31)

/-! ## Whole-machine rules -/

/-- R25: outside INIT and LOAD_STATE only the register decoder writes the register bank. -/
def Obligations.OnlyTheDecoderWritesTheBank : Prop :=
  ∀ (i : Instr) (s t : State), exec i s = .next t → (i = .tick ∨ i = .recalcAll ∨ ∃ rate, i = .setRate rate) →
    (∀ c, (t.ch c).volume = (s.ch c).volume ∧ (t.ch c).period = (s.ch c).period) ∧
    t.lastLatch = s.lastLatch ∧ t.stereoMask = s.stereoMask

/-- R34, R63: only INIT writes the enhancement flag and the store; only INIT and SET_RATE the rate and the clock
increment. -/
def Obligations.ConfigurationWriters : Prop :=
  ∀ (i : Instr) (s t : State), exec i s = .next t → (∀ rate enh store, i ≠ .init rate enh store) →
    t.enhancementEnabled = s.enhancementEnabled ∧ t.waveStore = s.waveStore ∧ t.initialised = s.initialised ∧
    ((∀ rate, i ≠ .setRate rate) →
      t.outputSampleRate = s.outputSampleRate ∧ t.clockIncrement = s.clockIncrement)

/-- R32, R30: outside INIT and LOAD_STATE the echo ring and its cursor change only by a TICK with the enhancement on,
and the LFSR only by a TICK or by PER_LATCH for channel 3, which sets it to 1. -/
def Obligations.EchoAndLfsrWriters : Prop :=
  ∀ (i : Instr) (s t : State), exec i s = .next t → (∀ rate enh store, i ≠ .init rate enh store) →
    (∀ r, i ≠ .loadState r) →
    ((i ≠ .tick ∨ s.enhancementEnabled = false) →
      (∀ k, t.echo.read k = s.echo.read k) ∧ t.writeCursor = s.writeCursor) ∧
    (i ≠ .tick → t.lfsr = if ∃ p, i = .perLatch 3 p then 1 else s.lfsr)

/-- R35, R174: only TICK adds to the caller's totals and returns a pair. -/
def Obligations.OnlyTickReachesTheTotals : Prop :=
  ∀ (i : Instr) (s t : State), exec i s = .next t → i ≠ .tick →
    t.accLeft = s.accLeft ∧ t.accRight = s.accRight ∧ t.samples = s.samples

/-- R222: before INIT every other operation is refused. -/
def Obligations.RefusedBeforeInit : Prop :=
  ∀ (i : Instr) (s : State), s.fault = none → s.initialised = false → (∀ rate enh store, i ≠ .init rate enh store) →
    exec i s = .refused .notInitialised

/-- R210: no operation has a step from a state whose fault is recorded. -/
def Obligations.FaultedStateHasNoStep : Prop :=
  ∀ (s : State) (r : FaultReason), s.fault = some r →
    (∀ i, exec i s = .fault (.terminal r)) ∧ step s = .fault (.terminal r)

/-- R203: a raised fault sets the sticky record; it returns no value, the totals are as they were, and the state it
leaves is terminal. -/
def Obligations.RaisedFaultIsRecorded : Prop :=
  ∀ (i : Instr) (s t : State) (r : FaultReason), exec i s = .fault (.raised r t) →
    s.fault = none ∧ t.fault = some r ∧ t.accLeft = s.accLeft ∧ t.accRight = s.accRight ∧ t.samples = s.samples ∧
    ∀ j, exec j t = .fault (.terminal r)

/-- R203, the table: which operation raises which reason. -/
def Obligations.FaultReasonSources : Prop :=
  ∀ (i : Instr) (s t : State) (r : FaultReason), exec i s = .fault (.raised r t) →
    match r with
    | .badRate => (∃ rate enh store, i = .init rate enh store) ∨ i = .setRate 0
    | .badState => ∃ record, i = .loadState record
    | .romIndex => (∀ rate enh store, i ≠ .init rate enh store) ∧ (∀ record, i ≠ .loadState record) ∧
        (∀ x l, i ≠ .writeStereo x l)
    | .arithRange => (∀ rate enh store, i ≠ .init rate enh store) ∧ (∀ record, i ≠ .loadState record) ∧
        (∀ x l, i ≠ .writeStereo x l)

/-! ## Invariants -/

/-- The reset state, and the instance before INIT, meet the invariant. -/
def Obligations.ResetMeetsTheInvariant : Prop :=
  StateInv Config.params State.reset ∧ StateInv Config.params State.fresh

/-- Every step keeps the invariant: the echo RAM's canonical form inside its ring (R32, R55), the cursor in the ring
(R32), positions below 2^31 (R27), scaled volumes at most 0x1000 (R29), waveform references in the store (R26, R129),
the clock increment that of the rate (R33). -/
def Obligations.EveryStepKeepsTheInvariant : Prop :=
  ∀ s t : State, StateInv Config.params s → step s = .next t → StateInv Config.params t

/-- R29: `volume_scaled[c]` is `ATTEN_TABLE[volume[c]] << 4`, at most 0x1000, after INIT, and every operation but
LOAD_STATE keeps it so; RECALC_ALL makes it so from any state. -/
def Obligations.ScaledVolumeFollowsTheVolume : Prop :=
  (∀ (i : Instr) (s t : State), (∀ r, i ≠ .loadState r) → Scaled Config.params s → exec i s = .next t →
    Scaled Config.params t) ∧
  (∀ (i : Instr) (s t : State), (i = .recalcAll ∨ ∃ rate enh store, i = .init rate enh store) → exec i s = .next t →
    Scaled Config.params t) ∧
  ∀ s : State, Scaled Config.params s → ∀ c, (s.ch c).volumeScaled ≤ 0x1000

/-- R130: after a recalc_increment that completes a channel with a period has a waveform; outside INIT and LOAD_STATE
an assignment is removed only by an attack, and stays removed only on a channel without a period; and every operation
but LOAD_STATE keeps it true of all four channels that a period implies a waveform, as INIT leaves it. -/
def Obligations.PeriodImpliesWaveform : Prop :=
  (∀ (P : Params) (c : Channel) (s t : State), recalcIncrement P c s = .next t → (t.ch c).period ≠ 0 →
    (t.ch c).waveformRef ≠ none) ∧
  (∀ (i : Instr) (s t : State) (c : Channel), (∀ rate enh store, i ≠ .init rate enh store) → (∀ r, i ≠ .loadState r) →
    exec i s = .next t → (s.ch c).waveformRef ≠ none → (t.ch c).waveformRef = none →
    (t.ch c).period = 0 ∧ ∃ d, (i = .volLatch c d ∨ (∃ x, i = .volCont x d) ∧ c = latchedChannel s.lastLatch) ∧
      (s.ch c).volume.toNat + 2 < (~~~d).toNat) ∧
  (∀ (rate : Nat) (enh : Bool) (store : List Waveform) (s t : State), exec (.init rate enh store) s = .next t →
    Assigned t) ∧
  (∀ (i : Instr) (s t : State), (∀ r, i ≠ .loadState r) → Assigned s → exec i s = .next t → Assigned t)

/-- R30, C10: bit 16 of the LFSR, once clear, stays clear, outside LOAD_STATE. -/
def Obligations.LfsrTopBitStaysClear : Prop :=
  ∀ (i : Instr) (s t : State), (∀ r, i ≠ .loadState r) → s.lfsr.getLsbD 16 = false → exec i s = .next t →
    t.lfsr.getLsbD 16 = false

/-- R171: under the default scale every echo entry stays in -39322..39013, and then channel 0's contribution after
the echo in -54068..53643. -/
def Obligations.EchoEntriesStayBounded : Prop :=
  ∀ P : Params, (∀ x, P.echoScale x = 3 * x / 4) → ∀ s : State, s.echo.wf = true →
    (∀ c, (s.ch c).volumeScaled ≤ 0x1000) → EchoBounded s →
    (∀ t, tick P s = .next t → EchoBounded t) ∧
    (∀ p : Mix, -32768 ≤ p.c0 → p.c0 ≤ 32512 → -54068 ≤ (echoMix P p s).c0 ∧ (echoMix P p s).c0 ≤ 53643)

/-! ## Parameters -/

/-- R120: the attenuation table is 0 at 0, non-decreasing and at most 0x100; and every table with the three
properties is one the parameter can be. -/
def Obligations.AttenTableIsAnyLegalTable : Prop :=
  (∀ P : Params, P.attenTable 0 = 0 ∧ (∀ u v : BitVec 4, u.toNat ≤ v.toNat → P.attenTable u ≤ P.attenTable v) ∧
    ∀ v, P.attenTable v ≤ 0x100) ∧
  (∀ (T : BitVec 4 → Nat) (P : Params), T 0 = 0 → (∀ u v : BitVec 4, u.toNat ≤ v.toNat → T u ≤ T v) →
    (∀ v, T v ≤ 0x100) → ∀ v, Params.attenTable { P with attenRaw := fun n => T (BitVec.ofNat 4 n) } v = T v)

/-- R163: LOOP_REMASK keeps the integer index (Q1), and every function that does is one the parameter can be. -/
def Obligations.LoopRemaskIsAnyLegalFunction : Prop :=
  (∀ (P : Params) (p : Nat), P.loopRemask p >>> 10 = p >>> 10) ∧
  (∀ (f : Nat → Nat) (P : Params), (∀ p, f p >>> 10 = p >>> 10) →
    ∀ p, Params.loopRemask { P with remaskRaw := f } p = f p)
end

