-- ==== Sys2Proof/Laws/State.lean ====
section
/-! SUPPORT. Laws.State: what each named update of the state does to each field, so that no proof unfolds a record
update; and the four-channel arrays. -/

namespace Sys2Proof

@[simp] theorem Quad.get_set_self {α : Type} (q : Quad α) (c : Channel) (a : α) : (q.set c a).get c = a := by
  match c with
  | 0 => rfl
  | 1 => rfl
  | 2 => rfl
  | 3 => rfl

theorem Quad.get_set {α : Type} (q : Quad α) (c d : Channel) (a : α) :
    (q.set c a).get d = if d = c then a else q.get d := by
  match c, d with
  | 0, 0 | 0, 1 | 0, 2 | 0, 3 => rfl
  | 1, 0 | 1, 1 | 1, 2 | 1, 3 => rfl
  | 2, 0 | 2, 1 | 2, 2 | 2, 3 => rfl
  | 3, 0 | 3, 1 | 3, 2 | 3, 3 => rfl

@[simp] theorem Quad.get_set_ne {α : Type} (q : Quad α) {c d : Channel} (a : α) (h : d ≠ c) :
    (q.set c a).get d = q.get d := by
  rw [Quad.get_set, if_neg h]

@[simp] theorem Quad.set_set {α : Type} (q : Quad α) (c : Channel) (a b : α) : (q.set c a).set c b = q.set c b := by
  match c with
  | 0 => rfl
  | 1 => rfl
  | 2 => rfl
  | 3 => rfl

@[simp] theorem Quad.set_get {α : Type} (q : Quad α) (c : Channel) : q.set c (q.get c) = q := by
  match c with
  | 0 => rfl
  | 1 => rfl
  | 2 => rfl
  | 3 => rfl

@[simp] theorem Quad.get_all {α : Type} (a : α) (c : Channel) : (Quad.all a).get c = a := by
  match c with
  | 0 => rfl
  | 1 => rfl
  | 2 => rfl
  | 3 => rfl

/-- Two arrays that agree at each channel are equal. -/
theorem Quad.ext_get {α : Type} {p q : Quad α} (h : ∀ c, p.get c = q.get c) : p = q := by
  cases p; cases q
  have h0 := h 0; have h1 := h 1; have h2 := h 2; have h3 := h 3
  simp only [Quad.get] at h0 h1 h2 h3
  simp [h0, h1, h2, h3]

end Sys2Proof

namespace Sys2Proof.Machine

/-! `State.setCh`, field by field. -/

@[simp] theorem State.setCh_chan (s : State) (c : Channel) (x : ChannelState) : (s.setCh c x).chan = s.chan.set c x := rfl
@[simp] theorem State.setCh_lastLatch (s : State) (c : Channel) (x : ChannelState) : (s.setCh c x).lastLatch = s.lastLatch := rfl
@[simp] theorem State.setCh_stereoMask (s : State) (c : Channel) (x : ChannelState) : (s.setCh c x).stereoMask = s.stereoMask := rfl
@[simp] theorem State.setCh_lfsr (s : State) (c : Channel) (x : ChannelState) : (s.setCh c x).lfsr = s.lfsr := rfl
@[simp] theorem State.setCh_echo (s : State) (c : Channel) (x : ChannelState) : (s.setCh c x).echo = s.echo := rfl
@[simp] theorem State.setCh_writeCursor (s : State) (c : Channel) (x : ChannelState) : (s.setCh c x).writeCursor = s.writeCursor := rfl
@[simp] theorem State.setCh_clockIncrement (s : State) (c : Channel) (x : ChannelState) : (s.setCh c x).clockIncrement = s.clockIncrement := rfl
@[simp] theorem State.setCh_outputSampleRate (s : State) (c : Channel) (x : ChannelState) : (s.setCh c x).outputSampleRate = s.outputSampleRate := rfl
@[simp] theorem State.setCh_enhancementEnabled (s : State) (c : Channel) (x : ChannelState) : (s.setCh c x).enhancementEnabled = s.enhancementEnabled := rfl
@[simp] theorem State.setCh_waveStore (s : State) (c : Channel) (x : ChannelState) : (s.setCh c x).waveStore = s.waveStore := rfl
@[simp] theorem State.setCh_initialised (s : State) (c : Channel) (x : ChannelState) : (s.setCh c x).initialised = s.initialised := rfl
@[simp] theorem State.setCh_fault (s : State) (c : Channel) (x : ChannelState) : (s.setCh c x).fault = s.fault := rfl
@[simp] theorem State.setCh_accLeft (s : State) (c : Channel) (x : ChannelState) : (s.setCh c x).accLeft = s.accLeft := rfl
@[simp] theorem State.setCh_accRight (s : State) (c : Channel) (x : ChannelState) : (s.setCh c x).accRight = s.accRight := rfl
@[simp] theorem State.setCh_events (s : State) (c : Channel) (x : ChannelState) : (s.setCh c x).events = s.events := rfl
@[simp] theorem State.setCh_samples (s : State) (c : Channel) (x : ChannelState) : (s.setCh c x).samples = s.samples := rfl
@[simp] theorem State.setCh_pending (s : State) (c : Channel) (x : ChannelState) : (s.setCh c x).pending = s.pending := rfl

/-! `State.emit`, field by field. -/

@[simp] theorem State.emit_chan (s : State) (es : List Event) : (s.emit es).chan = s.chan := rfl
@[simp] theorem State.emit_lastLatch (s : State) (es : List Event) : (s.emit es).lastLatch = s.lastLatch := rfl
@[simp] theorem State.emit_stereoMask (s : State) (es : List Event) : (s.emit es).stereoMask = s.stereoMask := rfl
@[simp] theorem State.emit_lfsr (s : State) (es : List Event) : (s.emit es).lfsr = s.lfsr := rfl
@[simp] theorem State.emit_echo (s : State) (es : List Event) : (s.emit es).echo = s.echo := rfl
@[simp] theorem State.emit_writeCursor (s : State) (es : List Event) : (s.emit es).writeCursor = s.writeCursor := rfl
@[simp] theorem State.emit_clockIncrement (s : State) (es : List Event) : (s.emit es).clockIncrement = s.clockIncrement := rfl
@[simp] theorem State.emit_outputSampleRate (s : State) (es : List Event) : (s.emit es).outputSampleRate = s.outputSampleRate := rfl
@[simp] theorem State.emit_enhancementEnabled (s : State) (es : List Event) : (s.emit es).enhancementEnabled = s.enhancementEnabled := rfl
@[simp] theorem State.emit_waveStore (s : State) (es : List Event) : (s.emit es).waveStore = s.waveStore := rfl
@[simp] theorem State.emit_initialised (s : State) (es : List Event) : (s.emit es).initialised = s.initialised := rfl
@[simp] theorem State.emit_fault (s : State) (es : List Event) : (s.emit es).fault = s.fault := rfl
@[simp] theorem State.emit_accLeft (s : State) (es : List Event) : (s.emit es).accLeft = s.accLeft := rfl
@[simp] theorem State.emit_accRight (s : State) (es : List Event) : (s.emit es).accRight = s.accRight := rfl
@[simp] theorem State.emit_events (s : State) (es : List Event) : (s.emit es).events = s.events ++ es := rfl
@[simp] theorem State.emit_samples (s : State) (es : List Event) : (s.emit es).samples = s.samples := rfl
@[simp] theorem State.emit_pending (s : State) (es : List Event) : (s.emit es).pending = s.pending := rfl
@[simp] theorem State.emit_ch (s : State) (es : List Event) (d : Channel) : (s.emit es).ch d = s.ch d := rfl

/-! `State.setLastLatch`, field by field. -/

@[simp] theorem State.setLastLatch_chan (s : State) (b : Byte) : (s.setLastLatch b).chan = s.chan := rfl
@[simp] theorem State.setLastLatch_lastLatch (s : State) (b : Byte) : (s.setLastLatch b).lastLatch = b := rfl
@[simp] theorem State.setLastLatch_stereoMask (s : State) (b : Byte) : (s.setLastLatch b).stereoMask = s.stereoMask := rfl
@[simp] theorem State.setLastLatch_lfsr (s : State) (b : Byte) : (s.setLastLatch b).lfsr = s.lfsr := rfl
@[simp] theorem State.setLastLatch_echo (s : State) (b : Byte) : (s.setLastLatch b).echo = s.echo := rfl
@[simp] theorem State.setLastLatch_writeCursor (s : State) (b : Byte) : (s.setLastLatch b).writeCursor = s.writeCursor := rfl
@[simp] theorem State.setLastLatch_clockIncrement (s : State) (b : Byte) : (s.setLastLatch b).clockIncrement = s.clockIncrement := rfl
@[simp] theorem State.setLastLatch_outputSampleRate (s : State) (b : Byte) : (s.setLastLatch b).outputSampleRate = s.outputSampleRate := rfl
@[simp] theorem State.setLastLatch_enhancementEnabled (s : State) (b : Byte) : (s.setLastLatch b).enhancementEnabled = s.enhancementEnabled := rfl
@[simp] theorem State.setLastLatch_waveStore (s : State) (b : Byte) : (s.setLastLatch b).waveStore = s.waveStore := rfl
@[simp] theorem State.setLastLatch_initialised (s : State) (b : Byte) : (s.setLastLatch b).initialised = s.initialised := rfl
@[simp] theorem State.setLastLatch_fault (s : State) (b : Byte) : (s.setLastLatch b).fault = s.fault := rfl
@[simp] theorem State.setLastLatch_accLeft (s : State) (b : Byte) : (s.setLastLatch b).accLeft = s.accLeft := rfl
@[simp] theorem State.setLastLatch_accRight (s : State) (b : Byte) : (s.setLastLatch b).accRight = s.accRight := rfl
@[simp] theorem State.setLastLatch_events (s : State) (b : Byte) : (s.setLastLatch b).events = s.events := rfl
@[simp] theorem State.setLastLatch_samples (s : State) (b : Byte) : (s.setLastLatch b).samples = s.samples := rfl
@[simp] theorem State.setLastLatch_pending (s : State) (b : Byte) : (s.setLastLatch b).pending = s.pending := rfl
@[simp] theorem State.setLastLatch_ch (s : State) (b : Byte) (d : Channel) : (s.setLastLatch b).ch d = s.ch d := rfl

/-! `State.setStereoMask`, field by field. -/

@[simp] theorem State.setStereoMask_chan (s : State) (m : Byte) : (s.setStereoMask m).chan = s.chan := rfl
@[simp] theorem State.setStereoMask_lastLatch (s : State) (m : Byte) : (s.setStereoMask m).lastLatch = s.lastLatch := rfl
@[simp] theorem State.setStereoMask_stereoMask (s : State) (m : Byte) : (s.setStereoMask m).stereoMask = m := rfl
@[simp] theorem State.setStereoMask_lfsr (s : State) (m : Byte) : (s.setStereoMask m).lfsr = s.lfsr := rfl
@[simp] theorem State.setStereoMask_echo (s : State) (m : Byte) : (s.setStereoMask m).echo = s.echo := rfl
@[simp] theorem State.setStereoMask_writeCursor (s : State) (m : Byte) : (s.setStereoMask m).writeCursor = s.writeCursor := rfl
@[simp] theorem State.setStereoMask_clockIncrement (s : State) (m : Byte) : (s.setStereoMask m).clockIncrement = s.clockIncrement := rfl
@[simp] theorem State.setStereoMask_outputSampleRate (s : State) (m : Byte) : (s.setStereoMask m).outputSampleRate = s.outputSampleRate := rfl
@[simp] theorem State.setStereoMask_enhancementEnabled (s : State) (m : Byte) : (s.setStereoMask m).enhancementEnabled = s.enhancementEnabled := rfl
@[simp] theorem State.setStereoMask_waveStore (s : State) (m : Byte) : (s.setStereoMask m).waveStore = s.waveStore := rfl
@[simp] theorem State.setStereoMask_initialised (s : State) (m : Byte) : (s.setStereoMask m).initialised = s.initialised := rfl
@[simp] theorem State.setStereoMask_fault (s : State) (m : Byte) : (s.setStereoMask m).fault = s.fault := rfl
@[simp] theorem State.setStereoMask_accLeft (s : State) (m : Byte) : (s.setStereoMask m).accLeft = s.accLeft := rfl
@[simp] theorem State.setStereoMask_accRight (s : State) (m : Byte) : (s.setStereoMask m).accRight = s.accRight := rfl
@[simp] theorem State.setStereoMask_events (s : State) (m : Byte) : (s.setStereoMask m).events = s.events := rfl
@[simp] theorem State.setStereoMask_samples (s : State) (m : Byte) : (s.setStereoMask m).samples = s.samples := rfl
@[simp] theorem State.setStereoMask_pending (s : State) (m : Byte) : (s.setStereoMask m).pending = s.pending := rfl
@[simp] theorem State.setStereoMask_ch (s : State) (m : Byte) (d : Channel) : (s.setStereoMask m).ch d = s.ch d := rfl

/-! `State.setLfsr`, field by field. -/

@[simp] theorem State.setLfsr_chan (s : State) (x : BitVec 17) : (s.setLfsr x).chan = s.chan := rfl
@[simp] theorem State.setLfsr_lastLatch (s : State) (x : BitVec 17) : (s.setLfsr x).lastLatch = s.lastLatch := rfl
@[simp] theorem State.setLfsr_stereoMask (s : State) (x : BitVec 17) : (s.setLfsr x).stereoMask = s.stereoMask := rfl
@[simp] theorem State.setLfsr_lfsr (s : State) (x : BitVec 17) : (s.setLfsr x).lfsr = x := rfl
@[simp] theorem State.setLfsr_echo (s : State) (x : BitVec 17) : (s.setLfsr x).echo = s.echo := rfl
@[simp] theorem State.setLfsr_writeCursor (s : State) (x : BitVec 17) : (s.setLfsr x).writeCursor = s.writeCursor := rfl
@[simp] theorem State.setLfsr_clockIncrement (s : State) (x : BitVec 17) : (s.setLfsr x).clockIncrement = s.clockIncrement := rfl
@[simp] theorem State.setLfsr_outputSampleRate (s : State) (x : BitVec 17) : (s.setLfsr x).outputSampleRate = s.outputSampleRate := rfl
@[simp] theorem State.setLfsr_enhancementEnabled (s : State) (x : BitVec 17) : (s.setLfsr x).enhancementEnabled = s.enhancementEnabled := rfl
@[simp] theorem State.setLfsr_waveStore (s : State) (x : BitVec 17) : (s.setLfsr x).waveStore = s.waveStore := rfl
@[simp] theorem State.setLfsr_initialised (s : State) (x : BitVec 17) : (s.setLfsr x).initialised = s.initialised := rfl
@[simp] theorem State.setLfsr_fault (s : State) (x : BitVec 17) : (s.setLfsr x).fault = s.fault := rfl
@[simp] theorem State.setLfsr_accLeft (s : State) (x : BitVec 17) : (s.setLfsr x).accLeft = s.accLeft := rfl
@[simp] theorem State.setLfsr_accRight (s : State) (x : BitVec 17) : (s.setLfsr x).accRight = s.accRight := rfl
@[simp] theorem State.setLfsr_events (s : State) (x : BitVec 17) : (s.setLfsr x).events = s.events := rfl
@[simp] theorem State.setLfsr_samples (s : State) (x : BitVec 17) : (s.setLfsr x).samples = s.samples := rfl
@[simp] theorem State.setLfsr_pending (s : State) (x : BitVec 17) : (s.setLfsr x).pending = s.pending := rfl
@[simp] theorem State.setLfsr_ch (s : State) (x : BitVec 17) (d : Channel) : (s.setLfsr x).ch d = s.ch d := rfl

/-! `State.setEcho`, field by field. -/

@[simp] theorem State.setEcho_chan (s : State) (m : Memory) (k : Nat) : (s.setEcho m k).chan = s.chan := rfl
@[simp] theorem State.setEcho_lastLatch (s : State) (m : Memory) (k : Nat) : (s.setEcho m k).lastLatch = s.lastLatch := rfl
@[simp] theorem State.setEcho_stereoMask (s : State) (m : Memory) (k : Nat) : (s.setEcho m k).stereoMask = s.stereoMask := rfl
@[simp] theorem State.setEcho_lfsr (s : State) (m : Memory) (k : Nat) : (s.setEcho m k).lfsr = s.lfsr := rfl
@[simp] theorem State.setEcho_echo (s : State) (m : Memory) (k : Nat) : (s.setEcho m k).echo = m := rfl
@[simp] theorem State.setEcho_writeCursor (s : State) (m : Memory) (k : Nat) : (s.setEcho m k).writeCursor = k := rfl
@[simp] theorem State.setEcho_clockIncrement (s : State) (m : Memory) (k : Nat) : (s.setEcho m k).clockIncrement = s.clockIncrement := rfl
@[simp] theorem State.setEcho_outputSampleRate (s : State) (m : Memory) (k : Nat) : (s.setEcho m k).outputSampleRate = s.outputSampleRate := rfl
@[simp] theorem State.setEcho_enhancementEnabled (s : State) (m : Memory) (k : Nat) : (s.setEcho m k).enhancementEnabled = s.enhancementEnabled := rfl
@[simp] theorem State.setEcho_waveStore (s : State) (m : Memory) (k : Nat) : (s.setEcho m k).waveStore = s.waveStore := rfl
@[simp] theorem State.setEcho_initialised (s : State) (m : Memory) (k : Nat) : (s.setEcho m k).initialised = s.initialised := rfl
@[simp] theorem State.setEcho_fault (s : State) (m : Memory) (k : Nat) : (s.setEcho m k).fault = s.fault := rfl
@[simp] theorem State.setEcho_accLeft (s : State) (m : Memory) (k : Nat) : (s.setEcho m k).accLeft = s.accLeft := rfl
@[simp] theorem State.setEcho_accRight (s : State) (m : Memory) (k : Nat) : (s.setEcho m k).accRight = s.accRight := rfl
@[simp] theorem State.setEcho_events (s : State) (m : Memory) (k : Nat) : (s.setEcho m k).events = s.events := rfl
@[simp] theorem State.setEcho_samples (s : State) (m : Memory) (k : Nat) : (s.setEcho m k).samples = s.samples := rfl
@[simp] theorem State.setEcho_pending (s : State) (m : Memory) (k : Nat) : (s.setEcho m k).pending = s.pending := rfl
@[simp] theorem State.setEcho_ch (s : State) (m : Memory) (k : Nat) (d : Channel) : (s.setEcho m k).ch d = s.ch d := rfl

/-! `State.setRate`, field by field. -/

@[simp] theorem State.setRate_chan (s : State) (r k : Nat) : (s.setRate r k).chan = s.chan := rfl
@[simp] theorem State.setRate_lastLatch (s : State) (r k : Nat) : (s.setRate r k).lastLatch = s.lastLatch := rfl
@[simp] theorem State.setRate_stereoMask (s : State) (r k : Nat) : (s.setRate r k).stereoMask = s.stereoMask := rfl
@[simp] theorem State.setRate_lfsr (s : State) (r k : Nat) : (s.setRate r k).lfsr = s.lfsr := rfl
@[simp] theorem State.setRate_echo (s : State) (r k : Nat) : (s.setRate r k).echo = s.echo := rfl
@[simp] theorem State.setRate_writeCursor (s : State) (r k : Nat) : (s.setRate r k).writeCursor = s.writeCursor := rfl
@[simp] theorem State.setRate_clockIncrement (s : State) (r k : Nat) : (s.setRate r k).clockIncrement = k := rfl
@[simp] theorem State.setRate_outputSampleRate (s : State) (r k : Nat) : (s.setRate r k).outputSampleRate = r := rfl
@[simp] theorem State.setRate_enhancementEnabled (s : State) (r k : Nat) : (s.setRate r k).enhancementEnabled = s.enhancementEnabled := rfl
@[simp] theorem State.setRate_waveStore (s : State) (r k : Nat) : (s.setRate r k).waveStore = s.waveStore := rfl
@[simp] theorem State.setRate_initialised (s : State) (r k : Nat) : (s.setRate r k).initialised = s.initialised := rfl
@[simp] theorem State.setRate_fault (s : State) (r k : Nat) : (s.setRate r k).fault = s.fault := rfl
@[simp] theorem State.setRate_accLeft (s : State) (r k : Nat) : (s.setRate r k).accLeft = s.accLeft := rfl
@[simp] theorem State.setRate_accRight (s : State) (r k : Nat) : (s.setRate r k).accRight = s.accRight := rfl
@[simp] theorem State.setRate_events (s : State) (r k : Nat) : (s.setRate r k).events = s.events := rfl
@[simp] theorem State.setRate_samples (s : State) (r k : Nat) : (s.setRate r k).samples = s.samples := rfl
@[simp] theorem State.setRate_pending (s : State) (r k : Nat) : (s.setRate r k).pending = s.pending := rfl
@[simp] theorem State.setRate_ch (s : State) (r k : Nat) (d : Channel) : (s.setRate r k).ch d = s.ch d := rfl

/-! `State.deliver`, field by field. -/

@[simp] theorem State.deliver_chan (s : State) (l r : Int) : (s.deliver l r).chan = s.chan := rfl
@[simp] theorem State.deliver_lastLatch (s : State) (l r : Int) : (s.deliver l r).lastLatch = s.lastLatch := rfl
@[simp] theorem State.deliver_stereoMask (s : State) (l r : Int) : (s.deliver l r).stereoMask = s.stereoMask := rfl
@[simp] theorem State.deliver_lfsr (s : State) (l r : Int) : (s.deliver l r).lfsr = s.lfsr := rfl
@[simp] theorem State.deliver_echo (s : State) (l r : Int) : (s.deliver l r).echo = s.echo := rfl
@[simp] theorem State.deliver_writeCursor (s : State) (l r : Int) : (s.deliver l r).writeCursor = s.writeCursor := rfl
@[simp] theorem State.deliver_clockIncrement (s : State) (l r : Int) : (s.deliver l r).clockIncrement = s.clockIncrement := rfl
@[simp] theorem State.deliver_outputSampleRate (s : State) (l r : Int) : (s.deliver l r).outputSampleRate = s.outputSampleRate := rfl
@[simp] theorem State.deliver_enhancementEnabled (s : State) (l r : Int) : (s.deliver l r).enhancementEnabled = s.enhancementEnabled := rfl
@[simp] theorem State.deliver_waveStore (s : State) (l r : Int) : (s.deliver l r).waveStore = s.waveStore := rfl
@[simp] theorem State.deliver_initialised (s : State) (l r : Int) : (s.deliver l r).initialised = s.initialised := rfl
@[simp] theorem State.deliver_fault (s : State) (l r : Int) : (s.deliver l r).fault = s.fault := rfl
@[simp] theorem State.deliver_accLeft (s : State) (l r : Int) : (s.deliver l r).accLeft = s.accLeft + l := rfl
@[simp] theorem State.deliver_accRight (s : State) (l r : Int) : (s.deliver l r).accRight = s.accRight + r := rfl
@[simp] theorem State.deliver_events (s : State) (l r : Int) : (s.deliver l r).events = s.events := rfl
@[simp] theorem State.deliver_samples (s : State) (l r : Int) : (s.deliver l r).samples = s.samples ++ [(l, r)] := rfl
@[simp] theorem State.deliver_pending (s : State) (l r : Int) : (s.deliver l r).pending = s.pending := rfl
@[simp] theorem State.deliver_ch (s : State) (l r : Int) (d : Channel) : (s.deliver l r).ch d = s.ch d := rfl

/-! `State.setPending`, field by field. -/

@[simp] theorem State.setPending_chan (s : State) (rs : List Request) : (s.setPending rs).chan = s.chan := rfl
@[simp] theorem State.setPending_lastLatch (s : State) (rs : List Request) : (s.setPending rs).lastLatch = s.lastLatch := rfl
@[simp] theorem State.setPending_stereoMask (s : State) (rs : List Request) : (s.setPending rs).stereoMask = s.stereoMask := rfl
@[simp] theorem State.setPending_lfsr (s : State) (rs : List Request) : (s.setPending rs).lfsr = s.lfsr := rfl
@[simp] theorem State.setPending_echo (s : State) (rs : List Request) : (s.setPending rs).echo = s.echo := rfl
@[simp] theorem State.setPending_writeCursor (s : State) (rs : List Request) : (s.setPending rs).writeCursor = s.writeCursor := rfl
@[simp] theorem State.setPending_clockIncrement (s : State) (rs : List Request) : (s.setPending rs).clockIncrement = s.clockIncrement := rfl
@[simp] theorem State.setPending_outputSampleRate (s : State) (rs : List Request) : (s.setPending rs).outputSampleRate = s.outputSampleRate := rfl
@[simp] theorem State.setPending_enhancementEnabled (s : State) (rs : List Request) : (s.setPending rs).enhancementEnabled = s.enhancementEnabled := rfl
@[simp] theorem State.setPending_waveStore (s : State) (rs : List Request) : (s.setPending rs).waveStore = s.waveStore := rfl
@[simp] theorem State.setPending_initialised (s : State) (rs : List Request) : (s.setPending rs).initialised = s.initialised := rfl
@[simp] theorem State.setPending_fault (s : State) (rs : List Request) : (s.setPending rs).fault = s.fault := rfl
@[simp] theorem State.setPending_accLeft (s : State) (rs : List Request) : (s.setPending rs).accLeft = s.accLeft := rfl
@[simp] theorem State.setPending_accRight (s : State) (rs : List Request) : (s.setPending rs).accRight = s.accRight := rfl
@[simp] theorem State.setPending_events (s : State) (rs : List Request) : (s.setPending rs).events = s.events := rfl
@[simp] theorem State.setPending_samples (s : State) (rs : List Request) : (s.setPending rs).samples = s.samples := rfl
@[simp] theorem State.setPending_pending (s : State) (rs : List Request) : (s.setPending rs).pending = rs := rfl
@[simp] theorem State.setPending_ch (s : State) (rs : List Request) (d : Channel) : (s.setPending rs).ch d = s.ch d := rfl

/-! Reading a channel after writing one. -/

@[simp] theorem State.ch_setCh_self (s : State) (c : Channel) (x : ChannelState) : (s.setCh c x).ch c = x :=
  Quad.get_set_self s.chan c x

@[simp] theorem State.ch_setCh_ne (s : State) {c d : Channel} (x : ChannelState) (h : d ≠ c) :
    (s.setCh c x).ch d = s.ch d := Quad.get_set_ne s.chan x h

theorem State.ch_setCh (s : State) (c d : Channel) (x : ChannelState) :
    (s.setCh c x).ch d = if d = c then x else s.ch d := Quad.get_set s.chan c d x

@[simp] theorem State.setCh_setCh (s : State) (c : Channel) (x y : ChannelState) :
    (s.setCh c x).setCh c y = s.setCh c y := by
  simp [State.setCh]

@[simp] theorem State.setCh_ch (s : State) (c : Channel) : s.setCh c (s.ch c) = s := by
  simp [State.setCh, State.ch]

@[simp] theorem State.reset_ch (c : Channel) : State.reset.ch c = ChannelState.reset := Quad.get_all _ c

end Sys2Proof.Machine
end

