-- ==== Sys2Proof/Laws/Memory.lean ====
section
/-! SUPPORT. Laws.Memory: the echo RAM keeps its canonical form; a read after a write gives the value written and
every other entry is as before; equal reads mean equal memories. -/

namespace Sys2Proof.Machine

@[simp] theorem Memory.read_nil (i : Nat) : Memory.read [] i = 0 := rfl

theorem Memory.read_cons (a : Nat) (v : Int) (m : Memory) (i : Nat) :
    Memory.read ((a, v) :: m) i = if i = a then v else m.read i := rfl

theorem Memory.wfFrom_cons {lo a : Nat} {v : Int} {m : Memory} :
    Memory.wfFrom lo ((a, v) :: m) = true ↔ lo ≤ a ∧ v ≠ 0 ∧ Memory.wfFrom (a + 1) m = true := by
  simp [Memory.wfFrom, and_assoc]

theorem Memory.wfFrom_mono {lo lo' : Nat} (hle : lo' ≤ lo) :
    ∀ {m : Memory}, Memory.wfFrom lo m = true → Memory.wfFrom lo' m = true
  | [], _ => rfl
  | (_, _) :: _, h => by
    obtain ⟨h1, h2, h3⟩ := Memory.wfFrom_cons.1 h
    exact Memory.wfFrom_cons.2 ⟨by omega, h2, h3⟩

/-- Below the first index a canonical memory reads 0. -/
theorem Memory.read_below {lo i : Nat} (hi : i < lo) : ∀ {m : Memory}, Memory.wfFrom lo m = true → m.read i = 0
  | [], _ => rfl
  | (a, v) :: m, h => by
    obtain ⟨h1, _, h3⟩ := Memory.wfFrom_cons.1 h
    rw [Memory.read_cons, if_neg (by omega), Memory.read_below (by omega) h3]

theorem Memory.read_write_from {lo i j : Nat} {v : Int} :
    ∀ {m : Memory}, Memory.wfFrom lo m = true → (m.write i v).read j = if j = i then v else m.read j
  | [], _ => by
    by_cases hv : v = 0 <;> simp [Memory.write, hv, Memory.read_cons]
  | (a, w) :: m, h => by
    obtain ⟨_, _, h3⟩ := Memory.wfFrom_cons.1 h
    unfold Memory.write
    split
    · rename_i hlt
      have hz : Memory.read m i = 0 := Memory.read_below (by omega) h3
      split
      · rename_i hv
        by_cases hj : j = i
        · subst hj; simp [Memory.read_cons, Nat.ne_of_lt hlt, hz, hv]
        · simp [hj]
      · rw [Memory.read_cons]
    · split
      · rename_i hia
        subst hia
        split
        · rename_i hv
          by_cases hj : j = i
          · subst hj; simp [hv, Memory.read_below (Nat.lt_succ_self j) h3]
          · simp [Memory.read_cons, hj]
        · by_cases hj : j = i <;> simp [Memory.read_cons, hj]
      · rw [Memory.read_cons, Memory.read_cons, Memory.read_write_from h3]
        by_cases hj : j = a
        · subst hj; rw [if_pos rfl, if_pos rfl, if_neg (by omega)]
        · rw [if_neg hj, if_neg hj]

/-- A read after a write (R55): the value written at its index, what was there before at every other. -/
theorem Memory.read_write {m : Memory} (h : m.wf = true) (i j : Nat) (v : Int) :
    (m.write i v).read j = if j = i then v else m.read j := Memory.read_write_from h

theorem Memory.wfFrom_write {lo i : Nat} {v : Int} (hi : lo ≤ i) :
    ∀ {m : Memory}, Memory.wfFrom lo m = true → Memory.wfFrom lo (m.write i v) = true
  | [], _ => by
    by_cases hv : v = 0 <;> simp [Memory.write, hv, Memory.wfFrom, hi]
  | (a, w) :: m, h => by
    obtain ⟨h1, h2, h3⟩ := Memory.wfFrom_cons.1 h
    unfold Memory.write
    split
    · rename_i hlt
      split
      · exact h
      · rename_i hv
        exact Memory.wfFrom_cons.2 ⟨hi, hv, Memory.wfFrom_cons.2 ⟨by omega, h2, h3⟩⟩
    · split
      · rename_i hia
        split
        · exact Memory.wfFrom_mono (by omega) h3
        · rename_i hv
          exact Memory.wfFrom_cons.2 ⟨hi, hv, hia ▸ h3⟩
      · exact Memory.wfFrom_cons.2 ⟨h1, h2, Memory.wfFrom_write (by omega) h3⟩

/-- A write keeps the canonical form. -/
theorem Memory.wf_write {m : Memory} (h : m.wf = true) (i : Nat) (v : Int) : (m.write i v).wf = true :=
  Memory.wfFrom_write (Nat.zero_le i) h

/-- A write below `n` keeps every index below `n`. -/
theorem Memory.within_write {n i : Nat} {v : Int} (hi : i < n) :
    ∀ {m : Memory}, m.within n = true → (m.write i v).within n = true
  | [], _ => by
    by_cases hv : v = 0 <;> simp [Memory.write, hv, Memory.within, hi]
  | (a, w) :: m, h => by
    have hm : Memory.within n m = true := by
      simp only [Memory.within, List.all_cons, Bool.and_eq_true] at h ⊢; exact h.2
    have ha : a < n := by simpa [Memory.within] using (show decide (a < n) = true by
      simp only [Memory.within, List.all_cons, Bool.and_eq_true] at h; exact h.1)
    unfold Memory.write
    split
    · split
      · exact h
      · simp only [Memory.within, List.all_cons, Bool.and_eq_true] at h ⊢
        exact ⟨by simpa using hi, h⟩
    · split
      · split
        · exact hm
        · simp only [Memory.within, List.all_cons, Bool.and_eq_true] at hm ⊢
          exact ⟨by simpa using hi, hm⟩
      · have := Memory.within_write (v := v) hi hm
        simp only [Memory.within, List.all_cons, Bool.and_eq_true] at this ⊢
        exact ⟨by simpa using ha, this⟩

theorem Memory.wfFrom_ofListFrom : ∀ (l : List Int) (i : Nat), Memory.wfFrom i (Memory.ofListFrom i l) = true
  | [], _ => rfl
  | v :: l, i => by
    unfold Memory.ofListFrom
    split
    · exact Memory.wfFrom_mono (Nat.le_succ i) (Memory.wfFrom_ofListFrom l (i + 1))
    · rename_i hv
      exact Memory.wfFrom_cons.2 ⟨Nat.le_refl i, hv, Memory.wfFrom_ofListFrom l (i + 1)⟩

/-- The ring of a record is in canonical form (R129). -/
theorem Memory.wf_ofList (l : List Int) : (Memory.ofList l).wf = true := Memory.wfFrom_ofListFrom l 0

theorem Memory.read_ofListFrom : ∀ (l : List Int) (i k : Nat), (Memory.ofListFrom i l).read (i + k) = l.getD k 0
  | [], _, _ => by simp [Memory.ofListFrom]
  | v :: l, i, 0 => by
    unfold Memory.ofListFrom
    split
    · rename_i hv
      simpa [hv] using Memory.read_below (Nat.lt_succ_self i) (Memory.wfFrom_ofListFrom l (i + 1))
    · simp [Memory.read_cons]
  | v :: l, i, k + 1 => by
    have ih := Memory.read_ofListFrom l (i + 1) k
    rw [show i + 1 + k = i + (k + 1) by omega] at ih
    unfold Memory.ofListFrom
    split
    · simpa using ih
    · rw [Memory.read_cons, if_neg (by omega)]; simpa using ih

/-- The ring of a record holds the record's entries in order (R129). -/
theorem Memory.read_ofList (l : List Int) (k : Nat) : (Memory.ofList l).read k = l.getD k 0 := by
  simpa [Memory.ofList] using Memory.read_ofListFrom l 0 k

theorem Memory.within_ofListFrom : ∀ (l : List Int) (i n : Nat), i + l.length ≤ n →
    (Memory.ofListFrom i l).within n = true
  | [], _, _, _ => rfl
  | v :: l, i, n, h => by
    have ih := Memory.within_ofListFrom l (i + 1) n (by simp at h; omega)
    unfold Memory.ofListFrom
    split
    · exact ih
    · simp only [Memory.within, List.all_cons, Bool.and_eq_true] at ih ⊢
      exact ⟨by simp at h ⊢; omega, ih⟩

theorem Memory.within_ofList {l : List Int} {n : Nat} (h : l.length = n) : (Memory.ofList l).within n = true :=
  Memory.within_ofListFrom l 0 n (by omega)

/-- The canonical form is canonical: memories that read alike are the same list. -/
theorem Memory.eq_of_read_from {lo : Nat} : ∀ {m n : Memory}, Memory.wfFrom lo m = true → Memory.wfFrom lo n = true →
    (∀ i, m.read i = n.read i) → m = n
  | [], [], _, _, _ => rfl
  | [], (b, w) :: n, _, hn, h => by
    have := h b
    simp [Memory.read_cons] at this
    exact absurd this.symm (Memory.wfFrom_cons.1 hn).2.1
  | (a, v) :: m, [], hm, _, h => by
    have := h a
    simp [Memory.read_cons] at this
    exact absurd this (Memory.wfFrom_cons.1 hm).2.1
  | (a, v) :: m, (b, w) :: n, hm, hn, h => by
    obtain ⟨_, hv, hm'⟩ := Memory.wfFrom_cons.1 hm
    obtain ⟨_, hw, hn'⟩ := Memory.wfFrom_cons.1 hn
    have hab : a = b := by
      rcases Nat.lt_trichotomy a b with hlt | heq | hgt
      · have := h a
        rw [Memory.read_cons, if_pos rfl, Memory.read_cons, if_neg (by omega),
          Memory.read_below (by omega) hn'] at this
        exact absurd this hv
      · exact heq
      · have := h b
        rw [Memory.read_cons, if_neg (by omega), Memory.read_below (by omega) hm', Memory.read_cons,
          if_pos rfl] at this
        exact absurd this.symm hw
    subst hab
    have hvw : v = w := by simpa [Memory.read_cons] using h a
    subst hvw
    have : m = n := Memory.eq_of_read_from hm' hn' fun i => by
      by_cases hi : i = a
      · rw [hi, Memory.read_below (Nat.lt_succ_self a) hm', Memory.read_below (Nat.lt_succ_self a) hn']
      · simpa [Memory.read_cons, hi] using h i
    rw [this]

theorem Memory.eq_of_read {m n : Memory} (hm : m.wf = true) (hn : n.wf = true) (h : ∀ i, m.read i = n.read i) :
    m = n := Memory.eq_of_read_from hm hn h

theorem State.reset_echo_wf : State.reset.echo.wf = true := rfl

end Sys2Proof.Machine
end

