-- ==== Sys2Proof/Laws/Ops.lean ====
section
/-! SUPPORT. Laws.Ops: one inversion lemma for each shared operation: if it answers a next state, what then. -/

namespace Sys2Proof.Machine

/-! Sequencing and the gates. -/

@[simp] theorem andThen_next {α β : Type} (a : α) (f : α → Result β) : andThen (.next a) f = f a := rfl

@[simp] theorem andThen_fault {α β : Type} (r : Fault) (f : α → Result β) : andThen (.fault r) f = .fault r := rfl

@[simp] theorem andThen_raise {α β : Type} (r : FaultReason) (s : State) (f : α → Result β) :
    andThen (raise r s) f = raise r s := rfl

theorem andThen_eq_next {α β : Type} {o : Result α} {f : α → Result β} {b : β} (h : andThen o f = .next b) :
    ∃ a, o = .next a ∧ f a = .next b := by
  cases o with
  | next a => exact ⟨a, rfl, h⟩
  | fault r => cases h
  | refused r => cases h

theorem andThen_eq_fault {α β : Type} {o : Result α} {f : α → Result β} {r : Fault} (h : andThen o f = .fault r) :
    o = .fault r ∨ ∃ a, o = .next a ∧ f a = .fault r := by
  cases o with
  | next a => exact .inr ⟨a, rfl, h⟩
  | fault r => exact .inl (by cases h; rfl)
  | refused r => cases h

@[simp] theorem raise_ne_next {α : Type} (r : FaultReason) (s : State) (a : α) : raise r s ≠ .next a := by
  intro h; cases h

theorem raise_eq_raised {α : Type} {r q : FaultReason} {s t : State}
    (h : (raise r s : Result α) = .fault (.raised q t)) : q = r ∧ t = { s with fault := some r } := by
  cases h; exact ⟨rfl, rfl⟩

theorem unlessFaulted_of_none {s : State} {body : State → Result State} (h : s.fault = none) :
    unlessFaulted s body = body s := by
  unfold unlessFaulted; rw [h]

theorem unlessFaulted_of_some {s : State} {body : State → Result State} {r : FaultReason} (h : s.fault = some r) :
    unlessFaulted s body = .fault (.terminal r) := by
  unfold unlessFaulted; rw [h]

theorem unlessFaulted_eq_next {s t : State} {body : State → Result State} (h : unlessFaulted s body = .next t) :
    s.fault = none ∧ body s = .next t := by
  unfold unlessFaulted at h
  split at h
  · cases h
  · exact ⟨‹_›, h⟩

theorem whenReady_of_ready {s : State} {body : State → Result State} (h : s.Ready) : whenReady s body = body s := by
  unfold whenReady; rw [unlessFaulted_of_none h.1, if_pos h.2]

theorem whenReady_of_some {s : State} {body : State → Result State} {r : FaultReason} (h : s.fault = some r) :
    whenReady s body = .fault (.terminal r) := unlessFaulted_of_some h

theorem whenReady_of_fresh {s : State} {body : State → Result State} (hf : s.fault = none)
    (hi : s.initialised = false) : whenReady s body = .refused .notInitialised := by
  unfold whenReady; rw [unlessFaulted_of_none hf, hi]; rfl

theorem whenReady_eq_next {s t : State} {body : State → Result State} (h : whenReady s body = .next t) :
    s.Ready ∧ body s = .next t := by
  obtain ⟨h1, h2⟩ := unlessFaulted_eq_next h
  split at h2
  · exact ⟨⟨h1, ‹_›⟩, h2⟩
  · cases h2

theorem unlessFaulted_eq_raised {s t : State} {body : State → Result State} {r : FaultReason}
    (h : unlessFaulted s body = .fault (.raised r t)) : s.fault = none ∧ body s = .fault (.raised r t) := by
  unfold unlessFaulted at h
  split at h
  · cases h
  · exact ⟨‹_›, h⟩

theorem whenReady_eq_raised {s t : State} {body : State → Result State} {r : FaultReason}
    (h : whenReady s body = .fault (.raised r t)) : s.Ready ∧ body s = .fault (.raised r t) := by
  obtain ⟨h1, h2⟩ := unlessFaulted_eq_raised h
  split at h2
  · exact ⟨⟨h1, ‹_›⟩, h2⟩
  · cases h2

/-! Re-derivation. -/

theorem inert_iff {a : ChannelState} : a.inert = true ↔ a.period = 0 := by
  unfold ChannelState.inert; exact beq_iff_eq

/-- The pick, in one form: an assigned waveform and its position stay (R122). -/
theorem pickWaveform_eq (P : Params) (c : Channel) (s : State) :
    pickWaveform P c s = s.setCh c { s.ch c with
      waveformRef := some (waveformIndex P c (s.ch c))
      position := if (s.ch c).waveformRef = none then 0 else (s.ch c).position } := by
  unfold pickWaveform
  split
  · rename_i k hk
    have h1 : waveformIndex P c (s.ch c) = k := by simp [waveformIndex, hk]
    have h2 : (if (s.ch c).waveformRef = none then 0 else (s.ch c).position) = (s.ch c).position :=
      if_neg (by rw [hk]; exact Option.some_ne_none k)
    rw [h1, h2, ← hk]
    exact (State.setCh_ch s c).symm
  · rename_i hk
    have h1 : waveformIndex P c (s.ch c) = pickIndex P c (s.ch c).period := by simp [waveformIndex, hk, pickIndex]
    rw [h1, if_pos hk]

/-- The increment of an assigned waveform (R123): what completes, and to what. -/
theorem deriveIncrement_eq_next {c : Channel} {s t : State} {k : Nat} (hk : (s.ch c).waveformRef = some k) :
    deriveIncrement c s = .next t ↔ ∃ w, s.waveStore[k]? = some w ∧
      (w.periodCount = 0 ∨ w.length * s.clockIncrement < 2 ^ 31) ∧
      t = s.setCh c { s.ch c with
        increment := if w.periodCount = 0 then (s.ch c).increment
          else w.length * s.clockIncrement / (s.ch c).period.toNat / w.periodCount } := by
  have ha : assignedWaveform s c = s.waveStore[k]? := by rw [assignedWaveform, hk]; rfl
  unfold deriveIncrement
  rw [ha]
  cases hw : s.waveStore[k]? with
  | none => simp
  | some w =>
    by_cases hpc : w.periodCount = 0
    · simp only [if_pos hpc, Host.Outcome.next.injEq, Option.some.injEq, exists_eq_left']
      have hs : s.setCh c { s.ch c with increment := (s.ch c).increment } = s := State.setCh_ch s c
      rw [hs]
      exact ⟨fun h => ⟨.inl hpc, h.symm⟩, fun h => h.2.symm⟩
    · by_cases hr : 2 ^ 31 ≤ w.length * s.clockIncrement
      · simp only [if_neg hpc, if_pos hr, raise_ne_next, Option.some.injEq, exists_eq_left', false_iff]
        rintro ⟨h | h, _⟩
        · exact hpc h
        · omega
      · simp only [if_neg hpc, if_neg hr, Host.Outcome.next.injEq, Option.some.injEq, exists_eq_left']
        exact ⟨fun h => ⟨.inr (by omega), h.symm⟩, fun h => h.2.symm⟩

/-- recalc_increment: it does nothing to an inert channel; else the pick is made and the increment derived, and only
channel c changes (R122, R123). -/
theorem recalcIncrement_eq_next {P : Params} {c : Channel} {s t : State} :
    recalcIncrement P c s = .next t ↔ ((s.ch c).period = 0 ∧ t = s) ∨
    ((s.ch c).period ≠ 0 ∧ ∃ w, s.waveStore[waveformIndex P c (s.ch c)]? = some w ∧
      (w.periodCount = 0 ∨ w.length * s.clockIncrement < 2 ^ 31) ∧
      t = s.setCh c { s.ch c with
        waveformRef := some (waveformIndex P c (s.ch c))
        position := if (s.ch c).waveformRef = none then 0 else (s.ch c).position
        increment := if w.periodCount = 0 then (s.ch c).increment
          else w.length * s.clockIncrement / (s.ch c).period.toNat / w.periodCount }) := by
  unfold recalcIncrement
  by_cases hp : (s.ch c).period = 0
  · rw [if_pos (inert_iff.2 hp)]
    simp only [hp, true_and, ne_eq, not_true_eq_false, false_and, or_false, Host.Outcome.next.injEq]
    exact eq_comm
  · rw [if_neg (fun h => hp (inert_iff.1 h)), pickWaveform_eq,
      deriveIncrement_eq_next (k := waveformIndex P c (s.ch c)) (by rw [State.ch_setCh_self])]
    simp only [hp, false_and, false_or, ne_eq, not_false_eq_true, true_and, State.ch_setCh_self, State.setCh_setCh,
      State.setCh_waveStore, State.setCh_clockIncrement]

/-- recalc_increment completes where nothing raises (R122, R123). -/
theorem recalcIncrement_completes {P : Params} {c : Channel} {s : State} (h : Derivable P s c (s.ch c)) :
    ∃ t, recalcIncrement P c s = .next t := by
  by_cases hp : (s.ch c).period = 0
  · exact ⟨s, recalcIncrement_eq_next.2 (.inl ⟨hp, rfl⟩)⟩
  · obtain hp' | ⟨w, hw, hr⟩ := h
    · exact absurd hp' hp
    · exact ⟨_, recalcIncrement_eq_next.2 (.inr ⟨hp, w, hw, hr, rfl⟩)⟩

/-- recalc_increment raises where R123 says. -/
theorem recalcIncrement_raises {P : Params} {c : Channel} {s : State} {r : FaultReason}
    (h : DerivationRaises P s c (s.ch c) r) : ∃ left, recalcIncrement P c s = .fault (.raised r left) := by
  obtain ⟨hp, h⟩ := h
  have ha : assignedWaveform (pickWaveform P c s) c = s.waveStore[waveformIndex P c (s.ch c)]? := by
    rw [pickWaveform_eq, assignedWaveform, State.ch_setCh_self]; rfl
  have hck : (pickWaveform P c s).clockIncrement = s.clockIncrement := by rw [pickWaveform_eq]; rfl
  unfold recalcIncrement deriveIncrement
  rw [if_neg (fun hi => hp (inert_iff.1 hi)), ha, hck]
  obtain ⟨rfl, hn⟩ | ⟨rfl, w, hw, hpc, hbig⟩ := h
  · rw [hn]; exact ⟨_, rfl⟩
  · rw [hw]
    dsimp only
    rw [if_neg hpc, if_pos hbig]; exact ⟨_, rfl⟩

/-- Rederive: only channel c changes, and to what R121 to R123 say. -/
theorem rederive_cases {P : Params} {c : Channel} {s t : State} (h : rederive P c s = .next t) :
    ∃ b, t = s.setCh c b ∧ Rederived P s c (s.ch c) b := by
  unfold rederive at h
  obtain ⟨hp, rfl⟩ | ⟨hp, w, hw, hrange, rfl⟩ := recalcIncrement_eq_next.1 h
  · refine ⟨_, rfl, ?_⟩
    simp only [recalcVolume, State.ch_setCh_self] at hp
    exact { volume := rfl, period := rfl, volumeScaled := by simp [Nat.shiftLeft_eq], inert := fun _ => ⟨rfl, rfl, rfl⟩,
            waveform := fun h => absurd hp h,
            derivable := .inl hp, position := fun h => absurd hp h, increment := fun h => absurd hp h }
  · simp only [recalcVolume, State.ch_setCh_self, State.setCh_setCh, State.setCh_waveStore,
      State.setCh_clockIncrement] at hp hw ⊢
    have hidx : waveformIndex P c { s.ch c with volumeScaled := P.attenTable (s.ch c).volume <<< 4 } =
        waveformIndex P c (s.ch c) := rfl
    rw [hidx] at hw ⊢
    refine ⟨_, rfl, ?_⟩
    exact { volume := rfl, period := rfl, volumeScaled := by simp [Nat.shiftLeft_eq], inert := fun h => absurd h hp,
            waveform := fun _ => rfl, derivable := .inr ⟨w, hw, hrange⟩, position := fun _ => rfl,
            increment := fun _ w' hw' => by rw [hw] at hw'; cases hw'; rfl }

theorem rederive_completes {P : Params} {c : Channel} {s : State} (h : Derivable P s c (s.ch c)) :
    ∃ b, rederive P c s = .next (s.setCh c b) ∧ Rederived P s c (s.ch c) b := by
  obtain ⟨t, ht⟩ : ∃ t, rederive P c s = .next t := by
    refine recalcIncrement_completes ?_
    rw [recalcVolume, State.ch_setCh_self]
    exact h
  obtain ⟨b, rfl, hb⟩ := rederive_cases ht
  exact ⟨b, ht, hb⟩

/-- One pass of RECALC_ALL leaves what Rederive leaves: the two computations are independent (R127). -/
theorem recalcChannel_cases {P : Params} {c : Channel} {s t : State} (h : recalcChannel P c s = .next t) :
    ∃ b, t = s.setCh c b ∧ Rederived P s c (s.ch c) b := by
  obtain ⟨u, hu, ht⟩ := andThen_eq_next h
  cases ht
  obtain ⟨hp, rfl⟩ | ⟨hp, w, hw, hrange, rfl⟩ := recalcIncrement_eq_next.1 hu
  · refine ⟨_, rfl, ?_⟩
    exact { volume := rfl, period := rfl, volumeScaled := by simp [Nat.shiftLeft_eq], inert := fun _ => ⟨rfl, rfl, rfl⟩,
            waveform := fun h => absurd hp h,
            derivable := .inl hp, position := fun h => absurd hp h, increment := fun h => absurd hp h }
  · refine ⟨_, by simp only [recalcVolume, State.ch_setCh_self, State.setCh_setCh]; rfl, ?_⟩
    exact { volume := rfl, period := rfl, volumeScaled := by simp [Nat.shiftLeft_eq], inert := fun h => absurd h hp,
            waveform := fun _ => rfl, derivable := .inr ⟨w, hw, hrange⟩, position := fun _ => rfl,
            increment := fun _ w' hw' => by rw [hw] at hw'; cases hw'; rfl }

theorem recalcChannel_completes {P : Params} {c : Channel} {s : State} (h : Derivable P s c (s.ch c)) :
    ∃ b, recalcChannel P c s = .next (s.setCh c b) ∧ Rederived P s c (s.ch c) b := by
  obtain ⟨t, ht⟩ := recalcIncrement_completes h
  have hr : recalcChannel P c s = .next (recalcVolume P c t) := by rw [recalcChannel, ht]; rfl
  obtain ⟨b, hb, hB⟩ := recalcChannel_cases hr
  exact ⟨b, by rw [hr, hb], hB⟩

/-- RECALC_ALL changes the channels alone, each to what R121 to R123 say (R127). -/
theorem recalcAll_cases {P : Params} {s t : State} (h : recalcAll P s = .next t) :
    ∃ q, t = { s with chan := q } ∧ ∀ c, Rederived P s c (s.ch c) (q.get c) := by
  obtain ⟨s0, h0, h⟩ := andThen_eq_next h
  obtain ⟨s1, h1, h⟩ := andThen_eq_next h
  obtain ⟨s2, h2, h3⟩ := andThen_eq_next h
  obtain ⟨b0, rfl, r0⟩ := recalcChannel_cases h0
  obtain ⟨b1, rfl, r1⟩ := recalcChannel_cases h1
  obtain ⟨b2, rfl, r2⟩ := recalcChannel_cases h2
  obtain ⟨b3, rfl, r3⟩ := recalcChannel_cases h3
  exact ⟨⟨b0, b1, b2, b3⟩, rfl, fun c => match c with
    | 0 => ⟨r0.1, r0.2, r0.3, r0.4, r0.5, r0.6, r0.7, r0.8⟩
    | 1 => ⟨r1.1, r1.2, r1.3, r1.4, r1.5, r1.6, r1.7, r1.8⟩
    | 2 => ⟨r2.1, r2.2, r2.3, r2.4, r2.5, r2.6, r2.7, r2.8⟩
    | 3 => ⟨r3.1, r3.2, r3.3, r3.4, r3.5, r3.6, r3.7, r3.8⟩⟩

theorem recalcAll_completes {P : Params} {s : State} (h : ∀ c, Derivable P s c (s.ch c)) :
    ∃ q, recalcAll P s = .next { s with chan := q } ∧ ∀ c, Rederived P s c (s.ch c) (q.get c) := by
  obtain ⟨b0, h0, _⟩ := recalcChannel_completes (h 0)
  obtain ⟨b1, h1, _⟩ := recalcChannel_completes (s := s.setCh 0 b0) (c := 1) (h 1)
  obtain ⟨b2, h2, _⟩ := recalcChannel_completes (s := (s.setCh 0 b0).setCh 1 b1) (c := 2) (h 2)
  obtain ⟨b3, h3, _⟩ := recalcChannel_completes (s := ((s.setCh 0 b0).setCh 1 b1).setCh 2 b2) (c := 3) (h 3)
  have hr : recalcAll P s = .next ((((s.setCh 0 b0).setCh 1 b1).setCh 2 b2).setCh 3 b3) := by
    simp only [recalcAll, h0, andThen_next, h1, h2, h3]
  obtain ⟨q, hq, hR⟩ := recalcAll_cases hr
  exact ⟨q, by rw [hr, hq], hR⟩

end Sys2Proof.Machine
end

