-- ==== Sys2Proof/Laws/Registers.lean ====
section
/-! SUPPORT. Laws.Registers: the register forms as one shape: the prologue, channel c put to what the form writes,
the re-derivation of c. -/

namespace Sys2Proof.Machine

/-- R104: bits 9:4 are kept, bits 3:0 are the data. -/
theorem withPeriodLow_eq_append (p : BitVec 10) (d : BitVec 4) : withPeriodLow p d = p.extractLsb' 4 6 ++ d := by
  apply BitVec.eq_of_getLsbD_eq
  intro i hi
  refine Eq.trans ?_ (BitVec.getLsbD_append (x := p.extractLsb' 4 6) (y := d) (i := i)).symm
  simp only [withPeriodLow, BitVec.getLsbD_or, BitVec.getLsbD_and, BitVec.getLsbD_setWidth, BitVec.getLsbD_extractLsb']
  have : i = 0 ∨ i = 1 ∨ i = 2 ∨ i = 3 ∨ i = 4 ∨ i = 5 ∨ i = 6 ∨ i = 7 ∨ i = 8 ∨ i = 9 := by omega
  rcases this with rfl | rfl | rfl | rfl | rfl | rfl | rfl | rfl | rfl | rfl <;> simp

/-- R106: bits 9:4 are the data, bits 3:0 are kept. -/
theorem withPeriodHigh_eq_append (p : BitVec 10) (d : BitVec 6) : withPeriodHigh p d = d ++ p.extractLsb' 0 4 := by
  apply BitVec.eq_of_getLsbD_eq
  intro i hi
  refine Eq.trans ?_ (BitVec.getLsbD_append (x := d) (y := p.extractLsb' 0 4) (i := i)).symm
  simp only [withPeriodHigh, BitVec.getLsbD_or, BitVec.getLsbD_and, BitVec.getLsbD_setWidth,
    BitVec.getLsbD_extractLsb', BitVec.getLsbD_shiftLeft]
  have : i = 0 ∨ i = 1 ∨ i = 2 ∨ i = 3 ∨ i = 4 ∨ i = 5 ∨ i = 6 ∨ i = 7 ∨ i = 8 ∨ i = 9 := by omega
  rcases this with rfl | rfl | rfl | rfl | rfl | rfl | rfl | rfl | rfl | rfl <;> simp

/-- SetVolume is the re-derivation of the channel with its new volume, the attack test made (R102, R107). -/
theorem setVolume_eq (P : Params) (c : Channel) (d : BitVec 4) (s : State) :
    setVolume P c (storedVolume d) s = rederive P c (s.setCh c (withVolume d (s.ch c))) := by
  unfold setVolume attackTest isAttack withVolume storedVolume
  by_cases h : (s.ch c).volume.toNat + 2 < (~~~d).toNat
  · rw [if_pos (decide_eq_true h), if_pos h, State.ch_setCh_self, State.setCh_setCh]
  · rw [if_neg (by rw [decide_eq_true_eq]; exact h), if_neg h]

theorem setPeriod_low_eq (c : Channel) (p : BitVec 4) (s : State) :
    setPeriod c (withPeriodLow (s.ch c).period p) s = s.setCh c (withLowPeriod p (s.ch c)) := by
  rw [setPeriod, withPeriodLow_eq_append]; rfl

theorem setPeriod_high_eq (c : Channel) (p : BitVec 6) (s : State) :
    setPeriod c (withPeriodHigh (s.ch c).period p) s = s.setCh c (withHighPeriod p (s.ch c)) := by
  rw [setPeriod, withPeriodHigh_eq_append]; rfl

/-- A channel is derivable, and re-derived, the same way in two states with one store and one clock increment. -/
theorem Derivable.congr {P : Params} {s t : State} {c : Channel} {a : ChannelState} (h : Derivable P s c a)
    (hst : t.waveStore = s.waveStore) (hck : t.clockIncrement = s.clockIncrement) : Derivable P t c a := by
  unfold Derivable at h ⊢; rw [hst, hck]; exact h

theorem Rederived.congr {P : Params} {s t : State} {c : Channel} {a b : ChannelState} (h : Rederived P s c a b)
    (hst : t.waveStore = s.waveStore) (hck : t.clockIncrement = s.clockIncrement) : Rederived P t c a b where
  volume := h.volume
  period := h.period
  volumeScaled := h.volumeScaled
  inert := h.inert
  waveform := h.waveform
  derivable := h.derivable.congr hst hck
  position := h.position
  increment := by rw [hst, hck]; exact h.increment

/-- VOL_LATCH, in that shape (R103). -/
theorem volLatch_eq (P : Params) (c : Channel) (d : BitVec 4) (s : State) :
    volLatch P c d s = andThen (rederive P c ((prologue .reg (volLatchByte c d) s).setCh c (withVolume d (s.ch c))))
      fun s => .next (s.setLastLatch (volLatchByte c d)) := by
  rw [volLatch, setVolume_eq]; rfl

theorem reseed_eq (c : Channel) (s : State) : reseed c s = { s with lfsr := if c = 3 then 1 else s.lfsr } := by
  unfold reseed; split <;> rfl

theorem reseed_setCh (c : Channel) (x : ChannelState) (s : State) : reseed c (s.setCh c x) = (reseed c s).setCh c x := by
  unfold reseed; split <;> rfl

/-- PER_LATCH, in that shape (R104). -/
theorem perLatch_eq (P : Params) (c : Channel) (p : BitVec 4) (s : State) :
    perLatch P c p s = rederive P c
      (((reseed c (prologue .reg (perLatchByte c p) s)).setLastLatch (perLatchByte c p)).setCh c
        (withLowPeriod p (s.ch c))) := by
  simp only [perLatch, setPeriod_low_eq, reseed_setCh]; rfl

/-- VOL_CONT, in that shape (R105). -/
theorem volCont_eq (P : Params) (x : BitVec 3) (d : BitVec 4) (s : State) :
    volCont P x d s = rederive P (latchedChannel s.lastLatch)
      ((prologue .reg (volContByte x d) s).setCh (latchedChannel s.lastLatch)
        (withVolume d (s.ch (latchedChannel s.lastLatch)))) := by
  rw [volCont, setVolume_eq]; rfl

/-- PER_CONT, in that shape (R106). -/
theorem perCont_eq (P : Params) (x : BitVec 1) (p : BitVec 6) (s : State) :
    perCont P x p s = rederive P (latchedChannel s.lastLatch)
      ((prologue .reg (perContByte x p) s).setCh (latchedChannel s.lastLatch)
        (withHighPeriod p (s.ch (latchedChannel s.lastLatch)))) := by
  simp only [perCont, setPeriod_high_eq]; rfl

/-- What a register form that answers has done (R102 to R108): the channel it names is re-derived from what it
writes, `last_latch` and the LFSR are as `u` has them, the prologue is emitted. -/
theorem rederive_after {P : Params} {c : Channel} {a : ChannelState} {u t : State}
    (h : rederive P c (u.setCh c a) = .next t) : ∃ b, t = u.setCh c b ∧ Rederived P u c a b := by
  obtain ⟨b, rfl, hb⟩ := rederive_cases h
  rw [State.ch_setCh_self] at hb
  exact ⟨b, by rw [State.setCh_setCh], hb.congr rfl rfl⟩

theorem rederive_after_completes {P : Params} {c : Channel} {a : ChannelState} {u : State} (h : Derivable P u c a) :
    ∃ b, rederive P c (u.setCh c a) = .next (u.setCh c b) ∧ Rederived P u c a b := by
  obtain ⟨b, hb, hR⟩ := rederive_completes (P := P) (c := c) (s := u.setCh c a)
    (by rw [State.ch_setCh_self]; exact h.congr rfl rfl)
  rw [State.ch_setCh_self] at hR
  exact ⟨b, by rw [hb, State.setCh_setCh], hR.congr rfl rfl⟩

/-- The latched channel is bits 6:5 of `last_latch` (R72). -/
theorem latchedChannel_of_val {b : Byte} {c : Channel} (h : c.val = b.toNat / 32 % 4) : latchedChannel b = c := by
  apply Fin.ext
  rw [h]
  simp [latchedChannel, channelField, Nat.shiftRight_eq_div_pow]

/-- If a register form answers (R102 to R108): its channel is re-derived from what the form writes, the prologue is
emitted, `last_latch` changes only by a latch form and the LFSR only by PER_LATCH for channel 3, nothing else. -/
theorem registerForm_cases {i : Instr} {s t : State} {c : Channel} {a : ChannelState}
    (ht : registerTarget s i = some (c, a)) (h : exec i s = .next t) :
    ∃ b latch lf, Rederived Config.params s c a b ∧
      t = { s with
        chan := s.chan.set c b
        lastLatch := latch
        lfsr := lf
        events := s.events ++ prologueEvents (encode i) } ∧
      ((∀ d, i ≠ .volLatch c d) → (∀ p, i ≠ .perLatch c p) → latch = s.lastLatch) ∧
      ((∀ p, i ≠ .perLatch 3 p) → lf = s.lfsr) ∧ (∀ p, i = .perLatch 3 p → lf = 1) := by
  cases i with
  | volLatch c' d =>
    obtain ⟨rfl, rfl⟩ : c' = c ∧ withVolume d (s.ch c') = a := by simpa [registerTarget] using ht
    obtain ⟨-, h⟩ := whenReady_eq_next h
    rw [volLatch_eq] at h
    obtain ⟨u, hu, h⟩ := andThen_eq_next h
    cases h
    obtain ⟨b, rfl, hb⟩ := rederive_after hu
    exact ⟨b, _, s.lfsr, hb.congr rfl rfl, rfl, fun h => absurd rfl (h d), fun _ => rfl, by intro _ h; cases h⟩
  | perLatch c' p =>
    obtain ⟨rfl, rfl⟩ : c' = c ∧ withLowPeriod p (s.ch c') = a := by simpa [registerTarget] using ht
    obtain ⟨-, h⟩ := whenReady_eq_next h
    rw [perLatch_eq, reseed_eq] at h
    obtain ⟨b, rfl, hb⟩ := rederive_after h
    refine ⟨b, _, if c' = 3 then 1 else s.lfsr, hb.congr rfl rfl, rfl, fun _ h => absurd rfl (h p),
      fun h => if_neg ?_, ?_⟩
    · rintro rfl; exact h p rfl
    · rintro q hq; cases hq; rfl
  | volCont x d =>
    obtain ⟨rfl, rfl⟩ : latchedChannel s.lastLatch = c ∧ _ = a := by simpa [registerTarget] using ht
    obtain ⟨-, h⟩ := whenReady_eq_next h
    rw [volCont_eq] at h
    obtain ⟨b, rfl, hb⟩ := rederive_after h
    exact ⟨b, s.lastLatch, s.lfsr, hb.congr rfl rfl, rfl, fun _ _ => rfl, fun _ => rfl, by intro _ h; cases h⟩
  | perCont x p =>
    obtain ⟨rfl, rfl⟩ : latchedChannel s.lastLatch = c ∧ _ = a := by simpa [registerTarget] using ht
    obtain ⟨-, h⟩ := whenReady_eq_next h
    rw [perCont_eq] at h
    obtain ⟨b, rfl, hb⟩ := rederive_after h
    exact ⟨b, s.lastLatch, s.lfsr, hb.congr rfl rfl, rfl, fun _ _ => rfl, fun _ => rfl, by intro _ h; cases h⟩
  | writeStereo r l => cases ht
  | tick => cases ht
  | init rate enh store => cases ht
  | setRate rate => cases ht
  | recalcAll => cases ht
  | loadState saved => cases ht

end Sys2Proof.Machine
end

