-- ==== Sys2Proof/Laws/Synth.lean ====
section
/-! SUPPORT. Laws.Synth: one lemma for each stage of TICK that says what it answers: the rewind, ToneSample,
NoiseAdvance, the echo stage, TICK itself. -/

namespace Sys2Proof.Machine

/-- The arithmetic shift is the division rounded down (R9). -/
theorem shiftDown_eq_div (x : Int) (n : Nat) : shiftDown x n = x / 2 ^ n := by
  rw [shiftDown, Int.shiftRight_eq_div_pow]; norm_num

theorem scaledSample_eq (v : Nat) (b : Byte) :
    scaledSample v b = ((v : Int) * ((b.toNat : Int) - 128)) / 2 ^ 4 := shiftDown_eq_div _ _

/-! The rewind (R162, R163). -/

/-- Q1: the integer index is kept (R163). -/
theorem loopRemask_index (P : Params) (p : Nat) : P.loopRemask p >>> 10 = p >>> 10 := by
  simp only [Params.loopRemask, Nat.shiftRight_eq_div_pow]
  have : P.remaskRaw p % 2 ^ 10 < 2 ^ 10 := Nat.mod_lt _ (by norm_num)
  omega

theorem index_after_pass {pos D : Nat} (P : Params) (h : D * 2 ^ 10 ≤ pos) :
    P.loopRemask (pos - D * 2 ^ 10) >>> 10 = (pos >>> 10) - D := by
  rw [loopRemask_index]
  simp only [Nat.shiftRight_eq_div_pow]
  omega

/-- With fuel above the index the loop answers what the relation of R162 says. -/
theorem rewindLoop_inside {P : Params} {w : Waveform} {out : Nat} : ∀ {fuel pos : Nat}, pos >>> 10 < fuel →
    (rewindLoop P w.length w.loopDistance fuel pos = .inside out ↔ Rewinds P w pos out)
  | 0, _, h => absurd h (Nat.not_lt_zero _)
  | fuel + 1, pos, h => by
    unfold rewindLoop
    by_cases h1 : pos >>> 10 < w.length
    · rw [if_pos h1]
      constructor
      · intro h; cases h; exact .stop _ h1
      · intro h; cases h with
        | stop => rfl
        | pass => omega
    · rw [if_neg h1]
      by_cases h2 : w.loopDistance = 0
      · rw [if_pos h2]
        constructor
        · intro h; cases h
        · intro h; cases h with
          | stop => omega
          | pass => contradiction
      · rw [if_neg h2, Nat.shiftLeft_eq]
        by_cases h3 : pos < w.loopDistance * 2 ^ 10
        · rw [if_pos h3]
          constructor
          · intro h; cases h
          · intro h; cases h with
            | stop => omega
            | pass => omega
        · rw [if_neg h3, rewindLoop_inside (by rw [index_after_pass P (by omega)]; omega)]
          constructor
          · intro h; exact .pass pos out (by omega) h2 (by omega) h
          · intro h; cases h with
            | stop => omega
            | pass _ _ _ _ _ h => exact h

theorem rewind_inside {P : Params} {w : Waveform} {pos out : Nat} :
    rewind P w pos = .inside out ↔ Rewinds P w pos out := rewindLoop_inside (Nat.lt_succ_self _)

/-- With fuel above the index the loop ends below 0 where the relation of R162 says so. -/
theorem rewindLoop_negative {P : Params} {w : Waveform} : ∀ {fuel pos : Nat}, pos >>> 10 < fuel →
    (rewindLoop P w.length w.loopDistance fuel pos = .negative ↔ RewindsBelow P w pos)
  | 0, _, h => absurd h (Nat.not_lt_zero _)
  | fuel + 1, pos, h => by
    unfold rewindLoop
    by_cases h1 : pos >>> 10 < w.length
    · rw [if_pos h1]
      constructor
      · intro h; cases h
      · intro h; cases h <;> omega
    rw [if_neg h1]
    by_cases h2 : w.loopDistance = 0
    · rw [if_pos h2]
      constructor
      · intro h; cases h
      · intro h; cases h <;> contradiction
    rw [if_neg h2, Nat.shiftLeft_eq]
    by_cases h3 : pos < w.loopDistance * 2 ^ 10
    · rw [if_pos h3]
      exact ⟨fun _ => .fall pos (by omega) h2 h3, fun _ => rfl⟩
    rw [if_neg h3, rewindLoop_negative (by rw [index_after_pass P (by omega)]; omega)]
    refine ⟨fun h => .pass pos (by omega) h2 (by omega) h, fun h => ?_⟩
    cases h with
    | fall => contradiction
    | pass _ _ _ _ h => exact h

theorem rewind_negative {P : Params} {w : Waveform} {pos : Nat} :
    rewind P w pos = .negative ↔ RewindsBelow P w pos := rewindLoop_negative (Nat.lt_succ_self _)

/-- The rewind ends below the length, at most at the position it began with or at a re-masked one. -/
theorem Rewinds.index_lt {P : Params} {w : Waveform} {pos out : Nat} (h : Rewinds P w pos out) :
    out >>> 10 < w.length := by
  induction h with
  | stop _ h => exact h
  | pass _ _ _ _ _ _ ih => exact ih

/-- A well-formed waveform always rewinds to a position below its length (R52, R162). -/
theorem Rewinds.exists_of_wf {P : Params} {w : Waveform} (hw : w.wf = true) (pos : Nat) :
    ∃ out, Rewinds P w pos out := by
  simp only [Waveform.wf, Bool.and_eq_true, decide_eq_true_eq] at hw
  induction hn : pos >>> 10 using Nat.strong_induction_on generalizing pos with
  | _ n ih =>
    by_cases h1 : pos >>> 10 < w.length
    · exact ⟨pos, .stop pos h1⟩
    · have hD : w.loopDistance * 2 ^ 10 ≤ pos := by
        simp only [Nat.shiftRight_eq_div_pow] at h1; omega
      have hidx := index_after_pass P hD
      obtain ⟨out, ho⟩ := ih _ (by omega) _ hidx
      exact ⟨out, .pass pos out (by omega) (by omega) hD ho⟩

/-! ToneSample (R161 to R165). -/

theorem romRead_eq_some {w : Waveform} {i : Nat} {b : Byte} :
    romRead w i = some b ↔ i < w.length ∧ w.data[i]? = some b := by
  unfold romRead; split <;> simp [*]

theorem advancePhase_eq_next {c : Channel} {s t : State} : advancePhase c s = .next t ↔
    (s.ch c).position + (s.ch c).increment < 2 ^ 31 ∧
      t = s.setCh c { s.ch c with position := (s.ch c).position + (s.ch c).increment } := by
  simp only [advancePhase, State.ch_setCh_self]
  by_cases h : 2 ^ 31 ≤ (s.ch c).position + (s.ch c).increment
  · rw [if_pos h]; simp only [raise_ne_next, false_iff]; omega
  · rw [if_neg h, Host.Outcome.next.injEq]
    exact ⟨fun h' => ⟨by omega, h'.symm⟩, fun h' => h'.2.symm⟩

theorem toneRead_eq_next {P : Params} {c : Channel} {s t : State} {p : Int} {k : Nat} {w : Waveform}
    (hk : (s.ch c).waveformRef = some k) (hw : s.waveStore[k]? = some w) :
    toneRead P c s = .next (t, p) ↔ ∃ next, ToneReads P w (s.ch c) p next ∧ next < 2 ^ 31 ∧
      t = s.setCh c { s.ch c with position := next } := by
  have ha : assignedWaveform s c = some w := by rw [assignedWaveform, hk]; exact hw
  unfold toneRead
  rw [ha]
  constructor
  · intro h
    dsimp only at h
    split at h
    · cases h
    · cases h
    · rename_i pos hpos
      unfold readAndAdvance at h
      rw [State.ch_setCh_self] at h
      dsimp only at h
      split at h
      · cases h
      · rename_i b hb
        obtain ⟨u, hu, h⟩ := andThen_eq_next h
        cases h
        obtain ⟨hlt, rfl⟩ := advancePhase_eq_next.1 hu
        simp only [State.ch_setCh_self, State.setCh_setCh] at hlt ⊢
        exact ⟨_, ⟨pos, b, rewind_inside.1 hpos, (romRead_eq_some.1 hb).2, scaledSample_eq _ _, rfl⟩, hlt, rfl⟩
  · rintro ⟨next, ⟨pos, b, hr, hb, rfl, rfl⟩, hlt, rfl⟩
    have hpos := rewind_inside.2 hr
    have hrom : romRead w (pos >>> 10) = some b := romRead_eq_some.2 ⟨hr.index_lt, hb⟩
    have hadv : advancePhase c (s.setCh c { s.ch c with position := pos }) =
        .next (s.setCh c { s.ch c with position := pos + (s.ch c).increment }) :=
      advancePhase_eq_next.2 ⟨by rw [State.ch_setCh_self]; exact hlt, by simp only [State.ch_setCh_self, State.setCh_setCh]⟩
    simp only [hpos, readAndAdvance, State.ch_setCh_self, hrom, hadv, andThen_next, scaledSample_eq]

/-- ToneSample, path by path (R161): the ROM is read only on the last. -/
theorem toneSample_paths (P : Params) (c : Channel) (s : State) :
    toneSample P c s =
      if (s.ch c).volumeScaled = 0 then .next (s, 0)
      else if (s.ch c).period.toNat ≤ 4 then .next (s, ((s.ch c).volumeScaled : Int))
      else if (s.ch c).waveformRef = none then .next (s, 0)
      else toneRead P c s := by
  simp only [toneSample, ChannelState.silent, ChannelState.bypassed, beq_iff_eq, decide_eq_true_eq]

/-- If ToneSample answers, it answers what R161 says, and only the position of channel c has changed. -/
theorem toneSample_cases {P : Params} {c : Channel} {s t : State} {p : Int} (h : toneSample P c s = .next (t, p)) :
    ∃ next, ToneSamples P s (s.ch c) p next ∧ (next = (s.ch c).position ∨ next < 2 ^ 31) ∧
      t = s.setCh c { s.ch c with position := next } := by
  have hself : s = s.setCh c { s.ch c with position := (s.ch c).position } := (State.setCh_ch s c).symm
  rw [toneSample_paths] at h
  unfold ToneSamples
  split at h
  · rename_i h1
    cases h; exact ⟨_, by rw [if_pos h1]; exact ⟨rfl, rfl⟩, .inl rfl, hself⟩
  · split at h
    · rename_i h1 h2
      cases h; exact ⟨_, by rw [if_neg h1, if_pos h2]; exact ⟨rfl, rfl⟩, .inl rfl, hself⟩
    · rename_i h1 h2
      simp only [if_neg h1, if_neg h2]
      cases h3 : (s.ch c).waveformRef with
      | none =>
        rw [if_pos h3] at h; cases h
        exact ⟨_, ⟨rfl, rfl⟩, .inl rfl, by rw [← h3]; exact hself⟩
      | some k =>
        rw [if_neg (by rw [h3]; exact Option.some_ne_none k)] at h
        cases hw : s.waveStore[k]? with
        | none =>
          have ha : assignedWaveform s c = none := by rw [assignedWaveform, h3]; exact hw
          unfold toneRead at h; rw [ha] at h; cases h
        | some w =>
          obtain ⟨next, hr, hlt, ht⟩ := (toneRead_eq_next h3 hw).1 h
          exact ⟨next, ⟨w, hw, hr⟩, .inr hlt, by rw [← h3]; exact ht⟩

/-- The position a rewind leaves is below the length in 22.10 units. -/
theorem Rewinds.lt {P : Params} {w : Waveform} {pos out : Nat} (h : Rewinds P w pos out) :
    out < w.length * 2 ^ 10 := by
  have := h.index_lt
  simp only [Nat.shiftRight_eq_div_pow] at this
  omega

/-- ToneSample completes on a playable channel (R161, R165). -/
theorem toneSample_completes {P : Params} {c : Channel} {s : State} (h : Playable P s (s.ch c)) :
    ∃ t p, toneSample P c s = .next (t, p) := by
  rw [toneSample_paths]
  by_cases h1 : (s.ch c).volumeScaled = 0
  · exact ⟨s, 0, by rw [if_pos h1]⟩
  by_cases h2 : (s.ch c).period.toNat ≤ 4
  · exact ⟨s, _, by rw [if_neg h1, if_pos h2]⟩
  by_cases h3 : (s.ch c).waveformRef = none
  · exact ⟨s, 0, by rw [if_neg h1, if_neg h2, if_pos h3]⟩
  rw [if_neg h1, if_neg h2, if_neg h3]
  obtain h | h | h | ⟨k, w, p, next, hk, hw, hr, hlt⟩ := h
  · exact absurd h h1
  · exact absurd h h2
  · exact absurd h h3
  exact ⟨_, p, (toneRead_eq_next hk hw).2 ⟨next, hr, hlt, rfl⟩⟩

/-- A well-formed waveform of the store with room for the advance plays (R52, R162, R165). -/
theorem Playable.of_wf {P : Params} {s : State} {a : ChannelState} {k : Nat} {w : Waveform}
    (hk : a.waveformRef = some k) (hw : s.waveStore[k]? = some w) (hwf : w.wf = true)
    (hroom : w.length * 2 ^ 10 + a.increment ≤ 2 ^ 31) : Playable P s a := by
  obtain ⟨pos, hr⟩ := Rewinds.exists_of_wf (P := P) hwf a.position
  have hlt := hr.lt
  have hidx := hr.index_lt
  have hlen : w.length ≤ w.data.length := by
    simp only [Waveform.wf, Bool.and_eq_true, decide_eq_true_eq] at hwf; exact hwf.2
  have hb : w.data[pos >>> 10]? = some (w.data[pos >>> 10]'(by omega)) := List.getElem?_eq_getElem _
  exact .inr (.inr (.inr ⟨k, w, _, _, hk, hw, ⟨pos, _, hr, hb, rfl, rfl⟩, by omega⟩))

/-- What ToneSamples says does not depend on anything of the state but the store. -/
theorem ToneSamples.congr {P : Params} {s t : State} {a : ChannelState} {p : Int} {next : Nat}
    (h : ToneSamples P s a p next) (hst : t.waveStore = s.waveStore) : ToneSamples P t a p next := by
  unfold ToneSamples at h ⊢
  rw [hst]; exact h

/-! NoiseAdvance (R143). -/

/-- The loop ends with the phase below 0x400, having stepped the register once for each 0x400 taken off. -/
theorem noiseLoop_eq (fb : Bool) : ∀ (n phase : Nat) (x : BitVec 17), phase / 0x400 ≤ n →
    noiseLoop fb n phase x = (phase % 0x400, (lfsrStep fb)^[phase / 0x400] x)
  | 0, phase, x, h => by
    have h0 : phase / 0x400 = 0 := by omega
    have h1 : phase % 0x400 = phase := by omega
    rw [h0, h1]; rfl
  | n + 1, phase, x, h => by
    unfold noiseLoop
    split
    · rename_i hge
      rw [noiseLoop_eq fb n (phase - 0x400) (lfsrStep fb x) (by omega)]
      have h1 : phase / 0x400 = (phase - 0x400) / 0x400 + 1 := by omega
      have h2 : phase % 0x400 = (phase - 0x400) % 0x400 := by omega
      rw [h1, h2, Function.iterate_succ_apply]
    · rename_i hlt
      have h0 : phase / 0x400 = 0 := by omega
      have h1 : phase % 0x400 = phase := by omega
      rw [h0, h1]; rfl

theorem noiseAdvance_eq_next {s t : State} : noiseAdvance s = .next t ↔ NoiseInRange s ∧
    t = (s.setCh 3 { s.ch 3 with position := ((s.ch 3).position + noiseRate s) % 0x400 }).setLfsr
      ((lfsrStep (feedbackSelect (s.ch 3).period))^[((s.ch 3).position + noiseRate s) / 0x400] s.lfsr) := by
  unfold noiseAdvance NoiseInRange
  dsimp only
  by_cases h : 2 ^ 31 ≤ (s.ch 3).position + noiseRate s
  · rw [if_pos h]; simp only [raise_ne_next, false_iff]; omega
  · rw [if_neg h, noiseLoop_eq _ _ _ _ (Nat.le_refl _), Host.Outcome.next.injEq]
    exact ⟨fun h' => ⟨by omega, h'.symm⟩, fun h' => h'.2.symm⟩

/-! TICK (R160). -/

/-- If TICK answers, each stage has answered, in the order of R160. -/
theorem tick_cases {P : Params} {s t : State} (h : tick P s = .next t) :
    ∃ s0 s1 s2 s3 p0 p1 p2, toneSample P 0 s = .next (s0, p0) ∧ toneSample P 1 s0 = .next (s1, p1) ∧
      toneSample P 2 s1 = .next (s2, p2) ∧ noiseAdvance s2 = .next s3 ∧
      t = mixDown P ⟨p0, p1, p2, noiseValue s2⟩ s3 := by
  obtain ⟨⟨s0, p0⟩, h0, h⟩ := andThen_eq_next h
  obtain ⟨⟨s1, p1⟩, h1, h⟩ := andThen_eq_next h
  obtain ⟨⟨s2, p2⟩, h2, h⟩ := andThen_eq_next h
  obtain ⟨⟨s3, p3⟩, h3, h⟩ := andThen_eq_next h
  obtain ⟨s3', h3', h3⟩ := andThen_eq_next h3
  cases h3; cases h
  exact ⟨s0, s1, s2, _, p0, p1, p2, h0, h1, h2, h3', rfl⟩

theorem tick_of_stages {P : Params} {s s0 s1 s2 s3 : State} {p0 p1 p2 : Int}
    (h0 : toneSample P 0 s = .next (s0, p0)) (h1 : toneSample P 1 s0 = .next (s1, p1))
    (h2 : toneSample P 2 s1 = .next (s2, p2)) (h3 : noiseAdvance s2 = .next s3) :
    tick P s = .next (mixDown P ⟨p0, p1, p2, noiseValue s2⟩ s3) := by
  simp only [tick, noiseSample, h0, h1, h2, h3, andThen_next]

/-- What a TICK that answers has changed (R160): positions, the LFSR, the ring with its cursor if the enhancement is
on, the totals and the returned pairs, and nothing else. -/
theorem tick_changes {P : Params} {s t : State} (h : tick P s = .next t) :
    ∃ (p : Mix) (next : Quad Nat), (∀ c : Channel, c ≠ 3 → ToneSamples P s (s.ch c) (p.get c) (next.get c) ∧
        (next.get c = (s.ch c).position ∨ next.get c < 2 ^ 31)) ∧
      NoiseInRange s ∧ p.c3 = noiseValue s ∧ next.c3 = ((s.ch 3).position + noiseRate s) % 0x400 ∧
      t = mixDown P p { s with
        chan := ⟨{ s.ch 0 with position := next.c0 }, { s.ch 1 with position := next.c1 },
          { s.ch 2 with position := next.c2 }, { s.ch 3 with position := next.c3 }⟩
        lfsr := (lfsrStep (feedbackSelect (s.ch 3).period))^[((s.ch 3).position + noiseRate s) / 0x400] s.lfsr } := by
  obtain ⟨s0, s1, s2, s3, p0, p1, p2, h0, h1, h2, h3, rfl⟩ := tick_cases h
  obtain ⟨n0, a0, b0, rfl⟩ := toneSample_cases h0
  obtain ⟨n1, a1, b1, rfl⟩ := toneSample_cases h1
  obtain ⟨n2, a2, b2, rfl⟩ := toneSample_cases h2
  obtain ⟨hn, rfl⟩ := noiseAdvance_eq_next.1 h3
  refine ⟨⟨p0, p1, p2, _⟩, ⟨n0, n1, n2, _⟩, ?_, hn, rfl, rfl, rfl⟩
  intro c hc
  match c with
  | 0 => exact ⟨a0, b0⟩
  | 1 => exact ⟨a1.congr rfl, b1⟩
  | 2 => exact ⟨a2.congr rfl, b2⟩
  | 3 => exact absurd rfl hc

/-- TICK completes where its channels do (R160). -/
theorem tick_completes {P : Params} {s : State} (h : ∀ c : Channel, c ≠ 3 → Playable P s (s.ch c))
    (hn : NoiseInRange s) : ∃ t, tick P s = .next t := by
  obtain ⟨_, p0, h0⟩ := toneSample_completes (P := P) (h 0 (by decide))
  obtain ⟨n0, _, _, rfl⟩ := toneSample_cases h0
  obtain ⟨_, p1, h1⟩ := toneSample_completes (P := P) (c := 1)
    (s := s.setCh 0 { s.ch 0 with position := n0 }) (h 1 (by decide))
  obtain ⟨n1, _, _, rfl⟩ := toneSample_cases h1
  obtain ⟨_, p2, h2⟩ := toneSample_completes (P := P) (c := 2)
    (s := (s.setCh 0 { s.ch 0 with position := n0 }).setCh 1 { s.ch 1 with position := n1 }) (h 2 (by decide))
  obtain ⟨n2, _, _, rfl⟩ := toneSample_cases h2
  exact ⟨_, tick_of_stages h0 h1 h2 (noiseAdvance_eq_next.2 ⟨hn, rfl⟩)⟩

/-- Where the channels before c play, what ToneSample(c) raises TICK raises (R160, R208): at that moment channel c
and the store are those of `s`. -/
theorem tick_eq_fault {P : Params} {s : State} {c : Channel} (hc : c ≠ 3)
    (h : ∀ e, e < c → Playable P s (s.ch e)) {r : Fault → Prop}
    (hf : ∀ u : State, u.ch c = s.ch c → u.waveStore = s.waveStore → ∃ f, r f ∧ toneSample P c u = .fault f) :
    ∃ f, r f ∧ tick P s = .fault f := by
  match c with
  | 0 =>
    obtain ⟨f, hr, ht⟩ := hf s rfl rfl
    exact ⟨f, hr, by rw [tick, ht, andThen_fault]⟩
  | 1 =>
    obtain ⟨s0, p0, h0⟩ := toneSample_completes (h 0 (by decide))
    obtain ⟨n0, _, _, e0⟩ := toneSample_cases h0
    obtain ⟨f, hr, ht⟩ := hf s0 (by rw [e0]; rfl) (by rw [e0]; rfl)
    exact ⟨f, hr, by rw [tick, h0, andThen_next, ht, andThen_fault]⟩
  | 2 =>
    obtain ⟨s0, p0, h0⟩ := toneSample_completes (h 0 (by decide))
    obtain ⟨n0, _, _, e0⟩ := toneSample_cases h0
    obtain ⟨s1, p1, h1⟩ := toneSample_completes (P := P) (c := 1) (s := s0) (by rw [e0]; exact h 1 (by decide))
    obtain ⟨n1, _, _, e1⟩ := toneSample_cases h1
    obtain ⟨f, hr, ht⟩ := hf s1 (by rw [e1, e0]; rfl) (by rw [e1, e0]; rfl)
    exact ⟨f, hr, by rw [tick, h0, andThen_next, h1, andThen_next, ht, andThen_fault]⟩
  | 3 => exact absurd rfl hc

/-- The echo ring's index is always inside the ring (R55). -/
theorem echoIndex_lt (P : Params) (i : Nat) : i &&& P.echoMask < P.echoLen := by
  rw [Params.echoMask, Params.echoLen, Nat.and_two_pow_sub_one_eq_mod]
  exact Nat.mod_lt _ (Nat.two_pow_pos _)

/-- What the last stages of TICK change: the ring and its cursor, if the enhancement is on, the totals and the
returned pairs (R170, R174). -/
theorem mixDown_eq (P : Params) (p : Mix) (s : State) : mixDown P p s =
    if s.enhancementEnabled then
      (s.setEcho (echoWritten P s s.writeCursor (echoEntry (echoMix P p s))) ((s.writeCursor + 1) &&& P.echoMask)).deliver
        (stereoMix s.stereoMask (echoMix P p s)).1 (stereoMix s.stereoMask (echoMix P p s)).2
    else s.deliver (stereoMix s.stereoMask p).1 (stereoMix s.stereoMask p).2 := by
  unfold mixDown enhance
  split <;> rfl

/-! The parameters (R55, R120). -/

theorem attenEntry_le (raw : Nat → Nat) : ∀ v, attenEntry raw v ≤ 0x100
  | 0 => by simp [attenEntry]
  | v + 1 => by
    have := attenEntry_le raw v
    simp only [attenEntry]; omega

theorem attenTable_le (P : Params) (v : BitVec 4) : P.attenTable v ≤ 0x100 := attenEntry_le _ _

end Sys2Proof.Machine
end

