-- ==== Sys2Proof/Laws/Faults.lean ====
section
/-! SUPPORT. Laws.Faults: what a raised fault leaves: the channels as far as the operation got, the sticky record
set, everything else as it was (R203); and which reasons the shared operations raise. -/

namespace Sys2Proof.Machine

/-- The state a fault inside derivation or synthesis leaves: the record is set, and only channels were written. -/
def LeftBy (s t : State) (r : FaultReason) : Prop := ∃ q, t = { s with chan := q, fault := some r }

theorem recalcIncrement_raised {P : Params} {c : Channel} {s t : State} {r : FaultReason}
    (h : recalcIncrement P c s = .fault (.raised r t)) : LeftBy s t r ∧ (r = .romIndex ∨ r = .arithRange) := by
  unfold recalcIncrement at h
  split at h
  · cases h
  · rw [pickWaveform_eq] at h
    generalize hu : s.setCh c _ = u at h
    have hl : ∀ r, LeftBy s { u with fault := some r } r := by
      intro r; subst hu; exact ⟨_, rfl⟩
    unfold deriveIncrement at h
    split at h
    · obtain ⟨rfl, rfl⟩ := raise_eq_raised h; exact ⟨hl _, .inl rfl⟩
    · split at h
      · cases h
      · split at h
        · obtain ⟨rfl, rfl⟩ := raise_eq_raised h; exact ⟨hl _, .inr rfl⟩
        · cases h

theorem rederive_raised {P : Params} {c : Channel} {s t : State} {r : FaultReason}
    (h : rederive P c s = .fault (.raised r t)) : LeftBy s t r ∧ (r = .romIndex ∨ r = .arithRange) := by
  obtain ⟨⟨q, rfl⟩, hr⟩ := recalcIncrement_raised h
  exact ⟨⟨q, rfl⟩, hr⟩

theorem recalcChannel_raised {P : Params} {c : Channel} {s t : State} {r : FaultReason}
    (h : recalcChannel P c s = .fault (.raised r t)) : LeftBy s t r ∧ (r = .romIndex ∨ r = .arithRange) := by
  obtain h | ⟨u, _, h⟩ := andThen_eq_fault h
  · exact recalcIncrement_raised h
  · cases h

/-- What a stage of a sequence leaves, seen from before the stages that answered. -/
theorem LeftBy.of_setCh {s t : State} {c : Channel} {x : ChannelState} {r : FaultReason}
    (h : LeftBy (s.setCh c x) t r) : LeftBy s t r := by
  obtain ⟨q, rfl⟩ := h; exact ⟨q, rfl⟩

theorem recalcAll_raised {P : Params} {s t : State} {r : FaultReason} (h : recalcAll P s = .fault (.raised r t)) :
    LeftBy s t r ∧ (r = .romIndex ∨ r = .arithRange) := by
  obtain h | ⟨u, hu, h⟩ := andThen_eq_fault h
  · exact recalcChannel_raised h
  obtain ⟨b, rfl, _⟩ := recalcChannel_cases hu
  obtain h | ⟨u, hu, h⟩ := andThen_eq_fault h
  · exact ⟨(recalcChannel_raised h).1.of_setCh, (recalcChannel_raised h).2⟩
  obtain ⟨b, rfl, _⟩ := recalcChannel_cases hu
  obtain h | ⟨u, hu, h⟩ := andThen_eq_fault h
  · exact ⟨(recalcChannel_raised h).1.of_setCh.of_setCh, (recalcChannel_raised h).2⟩
  obtain ⟨b, rfl, _⟩ := recalcChannel_cases hu
  exact ⟨(recalcChannel_raised h).1.of_setCh.of_setCh.of_setCh, (recalcChannel_raised h).2⟩

theorem toneSample_raised {P : Params} {c : Channel} {s t : State} {r : FaultReason}
    (h : toneSample P c s = .fault (.raised r t)) : LeftBy s t r ∧ (r = .romIndex ∨ r = .arithRange) := by
  rw [toneSample_paths] at h
  split at h
  · cases h
  split at h
  · cases h
  split at h
  · cases h
  unfold toneRead at h
  split at h
  · obtain ⟨rfl, rfl⟩ := raise_eq_raised h; exact ⟨⟨_, rfl⟩, .inl rfl⟩
  · split at h
    · cases h
    · obtain ⟨rfl, rfl⟩ := raise_eq_raised h; exact ⟨⟨_, rfl⟩, .inl rfl⟩
    · unfold readAndAdvance at h
      split at h
      · obtain ⟨rfl, rfl⟩ := raise_eq_raised h; exact ⟨⟨_, rfl⟩, .inl rfl⟩
      · obtain h | ⟨u, _, h⟩ := andThen_eq_fault h
        · unfold advancePhase at h
          dsimp only at h
          split at h
          · obtain ⟨rfl, rfl⟩ := raise_eq_raised h; exact ⟨⟨_, rfl⟩, .inr rfl⟩
          · cases h
        · cases h

theorem noiseSample_raised {s t : State} {r : FaultReason} (h : noiseSample s = .fault (.raised r t)) :
    LeftBy s t r ∧ r = .arithRange := by
  obtain h | ⟨u, _, h⟩ := andThen_eq_fault h
  · unfold noiseAdvance at h
    dsimp only at h
    split at h
    · obtain ⟨rfl, rfl⟩ := raise_eq_raised h; exact ⟨⟨_, rfl⟩, rfl⟩
    · cases h
  · cases h

theorem tick_raised {P : Params} {s t : State} {r : FaultReason} (h : tick P s = .fault (.raised r t)) :
    LeftBy s t r ∧ (r = .romIndex ∨ r = .arithRange) := by
  obtain h | ⟨⟨u, p0⟩, hu, h⟩ := andThen_eq_fault h
  · exact toneSample_raised h
  obtain ⟨n0, _, _, rfl⟩ := toneSample_cases hu
  obtain h | ⟨⟨u, p1⟩, hu, h⟩ := andThen_eq_fault h
  · exact ⟨(toneSample_raised h).1.of_setCh, (toneSample_raised h).2⟩
  obtain ⟨n1, _, _, rfl⟩ := toneSample_cases hu
  obtain h | ⟨⟨u, p2⟩, hu, h⟩ := andThen_eq_fault h
  · exact ⟨(toneSample_raised h).1.of_setCh.of_setCh, (toneSample_raised h).2⟩
  obtain ⟨n2, _, _, rfl⟩ := toneSample_cases hu
  obtain h | ⟨⟨u, p3⟩, hu, h⟩ := andThen_eq_fault h
  · exact ⟨(noiseSample_raised h).1.of_setCh.of_setCh.of_setCh, .inr (noiseSample_raised h).2⟩
  · cases h

end Sys2Proof.Machine
end

