-- ==== Sys2Proof/Laws/Lifecycle.lean ====
section
/-! SUPPORT. Laws.Lifecycle: INIT's re-derivation changes nothing, since every channel is inert and silent (R221). -/

namespace Sys2Proof.Machine

/-- Re-deriving a channel as INIT leaves it gives it back (R121, R122). -/
theorem Rederived.of_reset {P : Params} {s : State} {c : Channel} {b : ChannelState}
    (h : Rederived P s c ChannelState.reset b) : b = ChannelState.reset := by
  obtain ⟨e1, e2, e3⟩ := h.inert rfl
  have e4 := h.volume
  have e5 := h.period
  have e6 : b.volumeScaled = 0 := h.volumeScaled
  obtain ⟨_, _, _, _, _, _⟩ := b
  simp only at e1 e2 e3 e4 e5 e6
  subst e1 e2 e3 e4 e5 e6
  rfl

/-- INIT answers with its assignments, and nothing else (R220). -/
theorem initialise_eq_next {P : Params} {rate : Nat} {enh : Bool} {store : List Waveform} {s t : State} :
    initialise P rate enh store s = .next t ↔
      rate ≠ 0 ∧ P.clockTooFast = false ∧ t = initialState P rate enh store s := by
  have hall : recalcAll P (initialState P rate enh store s) = .next (initialState P rate enh store s) := by
    have hch : ∀ c, (initialState P rate enh store s).ch c = ChannelState.reset := fun c => Quad.get_all _ c
    obtain ⟨q, hq, hR⟩ := recalcAll_completes (P := P) (s := initialState P rate enh store s)
      (fun c => .inl (by rw [hch]; rfl))
    have : q = Quad.all ChannelState.reset := Quad.ext_get fun c => by
      have := hR c
      rw [hch] at this
      rw [Quad.get_all]; exact this.of_reset
    rw [hq, this]; rfl
  unfold initialise
  by_cases h : rate = 0 ∨ P.clockTooFast = true
  · rw [if_pos h]
    simp only [raise_ne_next, false_iff]
    rintro ⟨h0, h1, -⟩
    obtain h | h := h
    · exact h0 h
    · rw [h1] at h; cases h
  · rw [if_neg h, hall, Host.Outcome.next.injEq]
    have h0 : rate ≠ 0 := fun e => h (.inl e)
    have h1 : P.clockTooFast = false := by
      cases hc : P.clockTooFast
      · rfl
      · exact absurd (.inr hc) h
    exact ⟨fun e => ⟨h0, h1, e.symm⟩, fun e => e.2.2.symm⟩

/-- The machine's own clock is in range (R220). -/
theorem params_clock : Config.params.clockTooFast = false := by decide

end Sys2Proof.Machine
end

