-- ==== Sys2Proof/Laws/PerInstr.lean ====
section
/-! SUPPORT. Laws.PerInstr: the family TableRow: what an operation is encoded as lies on its row of
spec/opcode_table.json: its port, and the bits the row fixes (R71, R73, R75). -/

namespace Sys2Proof.Laws.TableRow

/-- The port, mask and match of an operation's row; none for a host operation, which has no byte. -/
def row : Instr → Option (Port × Byte × Byte)
  | .volLatch _ _ => some (.reg, 0x90, 0x90)
  | .perLatch _ _ => some (.reg, 0x90, 0x80)
  | .volCont _ _ => some (.reg, 0x80, 0x00)
  | .perCont _ _ => some (.reg, 0x80, 0x00)
  | .writeStereo _ _ => some (.stereo, 0x00, 0x00)
  | .tick => none
  | .init _ _ _ => none
  | .setRate _ => none
  | .recalcAll => none
  | .loadState _ => none

/-- The port and the byte a request writes. -/
def written : Request → Option (Port × Byte)
  | .writeReg b => some (.reg, b)
  | .writeStereo b => some (.stereo, b)
  | .tick => none
  | .init _ _ _ => none
  | .setRate _ => none
  | .recalcAll => none
  | .loadState _ => none

/-- The encoding is on the row: a byte where the row has one, on the row's port, with the row's fixed bits. -/
def Statement (i : Instr) : Prop :=
  (row i).isSome = (written (encode i)).isSome ∧
    ∀ port mask value p b, row i = some (port, mask, value) → written (encode i) = some (p, b) →
      p = port ∧ b &&& mask = value

/-- What is to be shown of an operation with a byte. -/
theorem of_byte {i : Instr} {port : Port} {mask value b : Byte} (hr : row i = some (port, mask, value))
    (hw : written (encode i) = some (port, b)) (h : b &&& mask = value) : Statement i := by
  refine ⟨by rw [hr, hw]; rfl, fun _ _ _ _ _ h1 h2 => ?_⟩
  rw [hr] at h1
  rw [hw] at h2
  cases h1
  cases h2
  exact ⟨rfl, h⟩

/-- What is to be shown of a host operation. -/
theorem of_none {i : Instr} (hr : row i = none) (hw : written (encode i) = none) : Statement i :=
  ⟨by rw [hr, hw]; rfl, fun _ _ _ _ _ h1 _ => by rw [hr] at h1; cases h1⟩

theorem volLatch (c : Channel) (d : BitVec 4) : Statement (.volLatch c d) := by
  have h : ∀ (c : Channel) (d : BitVec 4), volLatchByte c d &&& 0x90 = 0x90 := by decide
  exact of_byte rfl rfl (h c d)

theorem perLatch (c : Channel) (p : BitVec 4) : Statement (.perLatch c p) := by
  have h : ∀ (c : Channel) (p : BitVec 4), perLatchByte c p &&& 0x90 = 0x80 := by decide
  exact of_byte rfl rfl (h c p)

theorem volCont (x : BitVec 3) (d : BitVec 4) : Statement (.volCont x d) := by
  have h : ∀ (x : BitVec 3) (d : BitVec 4), volContByte x d &&& 0x80 = 0x00 := by decide
  exact of_byte rfl rfl (h x d)

theorem perCont (x : BitVec 1) (p : BitVec 6) : Statement (.perCont x p) := by
  have h : ∀ (x : BitVec 1) (p : BitVec 6), perContByte x p &&& 0x80 = 0x00 := by decide
  exact of_byte rfl rfl (h x p)

theorem writeStereo (r l : BitVec 4) : Statement (.writeStereo r l) := of_byte rfl rfl (BitVec.and_zero)

theorem tick : Statement .tick := of_none rfl rfl

theorem init (rate : Nat) (enh : Bool) (store : List Waveform) : Statement (.init rate enh store) := of_none rfl rfl

theorem setRate (rate : Nat) : Statement (.setRate rate) := of_none rfl rfl

theorem recalcAll : Statement .recalcAll := of_none rfl rfl

theorem loadState (saved : SavedState) : Statement (.loadState saved) := of_none rfl rfl

end Sys2Proof.Laws.TableRow
end

