-- ==== Sys2Proof/Tests/Slice0.lean ====
section
/-! SUPPORT. Tests: the WellFormed smoke, words written out from the byte formats, vectors of 95_test_vectors.md on
its fixture, and a witness for the hypotheses of every obligation. Expected values are the spec's. -/

namespace Sys2Proof.Tests

open Sys2Proof.Machine

/-! The fixture of 95_test_vectors.md §1. -/

/-- `ATTEN_TABLE` of the fixture. -/
def fixtureTable : List Nat := [0, 1, 2, 4, 6, 8, 12, 16, 24, 32, 48, 64, 96, 128, 192, 256]

/-- The parameters of the fixture. -/
def fixture : Params where
  chipClockHz := 3579540
  squareThreshold := 0x9F0
  stereoReset := 0xFF
  attenRaw := fun v => fixtureTable.getD v 0
  echoLog2 := 2
  instrumentRaw := fun c => c.val
  remaskRaw := fun _ => 0
  echoScaleRaw := fun x => shiftDown (3 * x) 2

def squareWave : Waveform := ⟨[255, 255, 255, 255, 0, 0, 0, 0], 8, 8, 1⟩
def waveOne : Waveform := ⟨[192, 160, 96, 64], 4, 4, 1⟩
def waveTwo : Waveform := ⟨[200, 56, 200, 56], 4, 4, 2⟩
def waveThree : Waveform := ⟨[128, 255, 0, 128, 192, 64], 6, 3, 1⟩
def waveFour : Waveform := ⟨[128], 1, 1, 0⟩

/-- `WAVE_STORE` of the fixture. -/
def fixtureStore : List Waveform := [squareWave, waveOne, waveTwo, waveThree, waveFour]

/-- V-I1 on the fixture's store. -/
def started : State := { State.reset with waveStore := fixtureStore }

/-- An answer holds of the next state, if there is one. -/
def onNext (o : Result State) (p : State → Bool) : Bool :=
  match o with
  | .next s => p s
  | .fault _ => false
  | .refused _ => false

/-- A raised reason. -/
def raises (o : Result State) (r : FaultReason) : Bool :=
  match o with
  | .fault (.raised q t) => q == r && t.fault == some r
  | .fault (.terminal _) => false
  | .fault .stuck => false
  | .next _ => false
  | .refused _ => false

/-- A state with one channel replaced. -/
def withChannel (c : Channel) (a : ChannelState) (s : State) : State := s.setCh c a

/-- Channel 0 after `reg 0x90; reg 0x85; reg 0x00` (program P1). -/
def toneChannel : ChannelState := ⟨15, 5, some 1, 0, 2077, 4096⟩

/-- A record's channel with every field 0 and no waveform. -/
def zeroChannel : SavedChannel := ⟨0, 0, none, 0, 0, 0⟩

/-- A record with every element 0 and `n` echo entries. -/
def zeroRecord (n : Nat) : SavedState := ⟨Quad.all zeroChannel, 0, 0, 0, List.replicate n 0, 0⟩

/-! WellFormed: an ill-formed term for each check. -/

theorem test_wf_init_rate_zero : Instr.wf (.init 0 false []) = false := by decide
theorem test_wf_init_wave_length : Instr.wf (.init 44100 false [⟨[], 0, 1, 1⟩]) = false := by decide
theorem test_wf_init_wave_no_loop : Instr.wf (.init 44100 false [⟨[128], 1, 0, 1⟩]) = false := by decide
theorem test_wf_init_wave_long_loop : Instr.wf (.init 44100 false [⟨[128], 1, 2, 1⟩]) = false := by decide
theorem test_wf_init_wave_short_data : Instr.wf (.init 44100 false [⟨[128], 2, 1, 1⟩]) = false := by decide
theorem test_wf_set_rate_zero : Instr.wf (.setRate 0) = false := by decide
theorem test_wf_record_volume : Instr.wf (.loadState { zeroRecord 4 with chan := Quad.all { zeroChannel with volume := 16 } }) = false := by
  decide
theorem test_wf_record_period : Instr.wf (.loadState { zeroRecord 4 with chan := Quad.all { zeroChannel with period := 1024 } }) = false := by
  decide
theorem test_wf_record_position : Instr.wf (.loadState { zeroRecord 4 with chan := Quad.all { zeroChannel with position := 2 ^ 31 } }) = false := by
  decide
theorem test_wf_record_increment : Instr.wf (.loadState { zeroRecord 4 with chan := Quad.all { zeroChannel with increment := -1 } }) = false := by
  decide
theorem test_wf_record_scaled : Instr.wf (.loadState { zeroRecord 4 with chan := Quad.all { zeroChannel with volumeScaled := 0x1001 } }) = false := by
  decide
theorem test_wf_record_reference : Instr.wf (.loadState { zeroRecord 4 with chan := Quad.all { zeroChannel with waveformRef := some (-1) } }) = false := by
  decide
theorem test_wf_record_latch : Instr.wf (.loadState { zeroRecord 4 with lastLatch := 256 }) = false := by decide
theorem test_wf_record_mask : Instr.wf (.loadState { zeroRecord 4 with stereoMask := 256 }) = false := by decide
theorem test_wf_record_lfsr : Instr.wf (.loadState { zeroRecord 4 with lfsr := 2 ^ 17 }) = false := by decide
theorem test_wf_record_cursor : Instr.wf (.loadState { zeroRecord 4 with writeCursor := -1 }) = false := by decide
theorem test_wf_accepts : (fixtureStore.all Waveform.wf && (zeroRecord 4).wf && Instr.wf (.volLatch 3 0)) = true := by decide

/-! Decode: words written out from R71 and R73 (W9, V-D1, V-D9). -/

theorem test_decode_vol_latch : decode 0x00 (.writeReg 0b10110101) = .volLatch 1 5 := by decide
theorem test_decode_per_latch : decode 0x00 (.writeReg 0b11001001) = .perLatch 2 9 := by decide
theorem test_decode_vol_cont : decode 0b10110101 (.writeReg 0b01110011) = .volCont 0b111 3 := by decide
theorem test_decode_per_cont : decode 0b11001001 (.writeReg 0b01111111) = .perCont 1 0x3F := by decide
theorem test_decode_before_any_latch : decode 0x00 (.writeReg 0b00111111) = .perCont 0 0x3F := by decide
theorem test_decode_stereo : decode 0x00 (.writeStereo 0b01011010) = .writeStereo 0x5 0xA := by decide
theorem test_decode_host : (decode 0xFF .tick, decode 0xFF .recalcAll, decode 0xFF (.setRate 48000)) =
    (.tick, .recalcAll, .setRate 48000) := by decide
theorem test_decode_host_data : decode 0xFF (.init 44100 true fixtureStore) = .init 44100 true fixtureStore ∧
    decode 0xFF (.loadState (zeroRecord 4)) = .loadState (zeroRecord 4) := by decide
theorem test_table_words : (decodeTableWord 8 0x90, decodeTableWord 8 0x80, decodeTableWord 8 0x00, decodeTableWord 0 0) =
    (some (.volLatch 0 0), some (.perLatch 0 0), some (.perCont 0 0), none) := by decide
theorem test_fetch_word : (State.reset.withFetchWord 8 0x90).pending = [.writeReg 0x90] ∧
    step (State.reset.withFetchWord 8 0x9F) = exec (.volLatch 0 15) State.reset := by
  exact ⟨by decide, rfl⟩

/-! The register forms (V-D1 to V-D9). -/

/-- V-D1: `reg 0x90`. -/
theorem test_vol_latch_loudest : onNext (volLatch fixture 0 0 started) (fun t =>
    (t.ch 0).volume == 15 && (t.ch 0).volumeScaled == 4096 && t.lastLatch == 0x90 &&
      t.events == [.flush, .trace .reg 0x90]) = true := by decide

/-- V-D7: from stored volume 3 at position 2077, stored 8 is an attack. -/
theorem test_vol_latch_attack : onNext (volLatch fixture 0 7 (withChannel 0 ⟨3, 5, some 1, 2077, 2077, 64⟩ started))
    (fun t => (t.ch 0).volume == 8 && (t.ch 0).position == 0 && (t.ch 0).waveformRef == some 1) = true := by decide

/-- V-D2: `reg 0x85`. -/
theorem test_per_latch_pick : onNext (perLatch fixture 0 5 started) (fun t =>
    (t.ch 0).period == 5 && (t.ch 0).waveformRef == some 1 && (t.ch 0).increment == 2077 && t.lastLatch == 0x85 &&
      t.lfsr == 1) = true := by decide

/-- V-D6, W2: `reg 0xE4` reseeds the LFSR; waveform 4 has period count 0, so the increment stays. -/
theorem test_per_latch_reseed : onNext (perLatch fixture 3 4 (started.setLfsr 0x2000)) (fun t =>
    t.lfsr == 1 && (t.ch 3).period == 4 && (t.ch 3).waveformRef == some 4 && (t.ch 3).increment == 0 &&
      t.lastLatch == 0xE4) = true := by decide

/-- V-D4: from last_latch 0xBF, `reg 0x05`. -/
theorem test_vol_cont : onNext (volCont fixture 0 5 (started.setLastLatch 0xBF)) (fun t =>
    (t.ch 1).volume == 0xA && (t.ch 1).volumeScaled == 768 && t.lastLatch == 0xBF) = true := by decide

/-- V-D4: from last_latch 0xFF, `reg 0x10`: channel 3, bits 6:4 ignored. -/
theorem test_vol_cont_ignores : onNext (volCont fixture 1 0 (started.setLastLatch 0xFF)) (fun t =>
    (t.ch 3).volume == 15 && (t.ch 3).volumeScaled == 4096) = true := by decide

/-- V-D5: from last_latch 0xC5 and period 5, `reg 0x12`. -/
theorem test_per_cont : onNext (perCont fixture 0 0x12
    ((withChannel 2 ⟨0, 5, some 3, 0, 3116, 0⟩ started).setLastLatch 0xC5)) (fun t =>
    (t.ch 2).period == 0x125 && (t.ch 2).increment == 53 && t.lastLatch == 0xC5) = true := by decide

/-- W2: from last_latch 0xE4 and lfsr 0x8000, `reg 0x3F` does not reseed. -/
theorem test_per_cont_keeps_lfsr : onNext (perCont fixture 0 0x3F ((started.setLastLatch 0xE4).setLfsr 0x8000)) (fun t =>
    t.lfsr == 0x8000 && (t.ch 3).period == 0x3F0) = true := by decide

/-- W8, R110: `stereo 0x00` and `stereo 0xFE`. -/
theorem test_write_stereo : onNext (execWriteStereo 0 0 started) (fun t => t.stereoMask == 0xFF &&
    t.events == [.flush, .trace .stereo 0x00]) = true := by decide
theorem test_write_stereo_one_side : onNext (execWriteStereo 0xF 0xE started) (fun t => t.stereoMask == 0x01) = true := by
  decide

/-! The life cycle (V-I1 to V-I4, V-R). -/

/-- V-I1: the clock increment at 44100 Hz; V-I4: INIT sets the flag. -/
theorem test_init : onNext (initialise fixture 44100 true fixtureStore State.fresh) (fun t =>
    t.clockIncrement == 2597 && t.enhancementEnabled && t.stereoMask == 0xFF && t.lfsr == 1 && t.events == []) = true := by
  decide

/-- V-I3. -/
theorem test_init_bad_rate : raises (execInit 0 false fixtureStore State.fresh) .badRate = true := by decide
theorem test_set_rate_bad_rate : raises (execSetRate 0 started) .badRate = true := by decide

/-- §1: `clock_increment` at 22050 Hz is 5194; the increment of channel 0 with period 5 is then 4·5194/5. -/
theorem test_set_rate : onNext (setRate fixture 22050 (withChannel 0 toneChannel started)) (fun t =>
    t.clockIncrement == 5194 && t.outputSampleRate == 22050 && (t.ch 0).increment == 4155 &&
      (t.ch 0).waveformRef == some 1) = true := by decide

/-- R127: the increment and the scaled volume are derived from the registers, the position kept. -/
theorem test_recalc_all : onNext (recalcAll fixture (withChannel 0 ⟨15, 5, some 1, 2077, 9, 9⟩ started)) (fun t =>
    (t.ch 0).increment == 2077 && (t.ch 0).volumeScaled == 4096 && (t.ch 0).position == 2077) = true := by decide

/-- V-D6: `period[3] = 0x3F4` set by LOAD_STATE. -/
theorem test_load_state : onNext (loadState fixture { zeroRecord 4 with
      chan := { (zeroRecord 4).chan with c3 := { zeroChannel with period := 0x3F4 } }, lfsr := 0x10001 } started)
    (fun t => (t.ch 3).period == 0x3F4 && t.lfsr == 0x10001 && t.clockIncrement == 2597) = true := by decide

/-- R129: a cursor at ECHO_LEN is refused. -/
theorem test_load_state_cursor : raises (loadState fixture { zeroRecord 4 with writeCursor := 4 } started) .badState = true := by
  decide

/-! TICK (P1, V-I2, V-S1, V-N, W4). -/

/-- P1: the first TICK reads index 0 at full volume; V-I2: 20 LFSR steps. -/
theorem test_tick_tone : onNext (tick fixture (withChannel 0 toneChannel started)) (fun t =>
    t.samples == [(16384, 16384)] && (t.ch 0).position == 2077 && t.lfsr == 0x1000 && (t.ch 3).position == 296) = true := by
  decide

/-- W5: left only, p = -7. -/
theorem test_stereo_left_only : stereoMix 0x01 ⟨-7, 0, 0, 0⟩ = (-7, -2) := by decide

/-- W8. -/
theorem test_stereo_all : stereoMix 0xFF ⟨-7, 100, -1, 4096⟩ = (4188, 4188) := by decide

/-- W4: waveform 3 at position 6232 rewinds once to 3160 and is re-masked to 3072. -/
theorem test_rewind_loop : rewind fixture waveThree 6232 = .inside 3072 := by decide

/-- R142. -/
theorem test_lfsr_step : (lfsrStep true 0x8, lfsrStep false 1) = (0x1004, 0x8000) := by decide

/-- R141: mode 3 with `period[2]` 5, 1008 and 0. -/
theorem test_noise_rate : [5, 1008, 0].map (fun p : BitVec 10 =>
    noiseRate (withChannel 3 ⟨0, 3, none, 0, 0, 0⟩ (withChannel 2 ⟨0, p, none, 0, 0, 0⟩ started))) = [519, 2, 20776] := by
  decide

/-- R9: the shift rounds down. -/
theorem test_shift_down : (shiftDown (-7) 2, shiftDown (-1) 2, shiftDown 7 2) = (-2, -1, 1) := by decide

/-- Whether an answer is the stuck fault. -/
def isStuck (o : Result State) : Bool :=
  match o with
  | .fault .stuck => true
  | .fault (.raised _ _) => false
  | .fault (.terminal _) => false
  | .next _ => false
  | .refused _ => false

/-- A waveform that never rewinds. -/
def endlessWave : Waveform := ⟨[192, 160, 96, 64], 4, 0, 1⟩

/-- R204: a waveform with loop distance 0 read past its end. -/
theorem test_tick_stuck : isStuck (tick fixture (withChannel 0 { toneChannel with position := 4096 }
    { started with waveStore := [squareWave, endlessWave] })) = true := by decide

/-- V-F2: loop distance 3 over a waveform of length 2; the second TICK rewinds 2076 below 0. -/
def overLoop : Waveform := ⟨[10, 20], 2, 3, 1⟩
theorem test_tick_below_zero : raises (tick fixture (withChannel 0 { toneChannel with position := 2076 }
    { started with waveStore := [squareWave, overLoop] })) .romIndex = true := by decide

/-! Witnesses: for each obligation with hypotheses, a state and operands that meet them all, clause by clause. -/

/-- Every channel plays waveform 0 of the fixture's store with period 5; nothing here reads an open parameter. -/
def playing : State := { started with chan := Quad.all ⟨10, 5, some 0, 0, 2597, 768⟩ }

/-- One waveform at every index channel c's pick can give. -/
def picked (c : Channel) : State := { State.reset with waveStore := List.replicate (Config.instrumentRaw c + 2) waveOne }

/-- Channel 0 with stored volume 12 and a period. -/
def attacked : State := (picked 0).setCh 0 ⟨12, 5, some 0, 7, 0, 0⟩

theorem playing_ready : playing.Ready := ⟨rfl, rfl⟩

theorem pick_in_store (c : Channel) : (picked c).waveStore[Config.params.instrumentIndex c]? = some waveOne := by
  have h : Config.params.instrumentIndex c < Config.instrumentRaw c + 2 := Nat.lt_succ_self _
  exact List.getElem?_replicate_of_lt h

/-- EncodeThenDecode: each form, at a latch that selects it. -/
theorem test_hyp_EncodeThenDecode : (Instr.volLatch 3 15).fits 0x00 = true ∧ (Instr.perLatch 3 15).fits 0xFF = true ∧
    (Instr.volCont 7 15).fits 0x10 = true ∧ (Instr.perCont 1 0x3F).fits 0xEF = true ∧
    (Instr.writeStereo 15 15).fits 0x00 = true ∧ Instr.tick.fits 0x10 = true := by decide

/-- RegByteIsOneOfFourForms: each clause at the ends of its range. -/
theorem test_hyp_RegByteIsOneOfFourForms :
    ((0x90 : Byte) &&& 0x90 = 0x90 ∧ (0xFF : Byte) &&& 0x90 = 0x90) ∧
    ((0x80 : Byte) &&& 0x90 = 0x80 ∧ (0xEF : Byte) &&& 0x90 = 0x80) ∧
    ((0x00 : Byte) &&& 0x80 = 0 ∧ (0x7F : Byte) &&& 0x80 = 0) ∧
    ((0x10 : Byte) &&& 0x10 ≠ 0 ∧ (0xEF : Byte) &&& 0x10 = 0) := by decide

theorem test_hyp_IgnoredBitsHaveNoEffect : (∃ t, exec (.volCont 7 3) (started.setLastLatch 0xB5) = .next t) ∧
    ∃ t, exec (.perCont 1 0) State.reset = .next t := ⟨⟨_, rfl⟩, _, rfl⟩

theorem test_hyp_StepRunsTheDecodedInstruction :
    ({ State.reset with pending := [encode (.volLatch 1 5), .tick] } : State).pending = encode (.volLatch 1 5) :: [.tick] ∧
      (Instr.volLatch 1 5).fits State.reset.lastLatch = true := ⟨rfl, rfl⟩

theorem test_hyp_IdleStepHoldsTheState : State.reset.fault = none ∧ State.reset.pending = [] := ⟨rfl, rfl⟩

/-- WritePrologueEvents: a write that answers, and one that faults. -/
theorem test_hyp_WritePrologueEvents : (∃ t, exec (.volLatch 0 0) State.reset = .next t) ∧
    ∃ t, exec (.perLatch 0 1) State.reset = .fault (.raised .romIndex t) := ⟨⟨_, rfl⟩, _, rfl⟩

/-- VolLatchResult: an inert channel; a channel that keeps its waveform; an attack that picks one. -/
theorem test_hyp_VolLatchResult :
    (State.reset.Ready ∧ Derivable Config.params State.reset 3 (withVolume 0 (State.reset.ch 3))) ∧
    (playing.Ready ∧ Derivable Config.params playing 0 (withVolume 5 (playing.ch 0))) ∧
    (attacked.Ready ∧ Derivable Config.params attacked 0 (withVolume 0 (attacked.ch 0))) :=
  ⟨⟨⟨rfl, rfl⟩, .inl rfl⟩, ⟨playing_ready, .inr ⟨squareWave, rfl, .inr (by decide)⟩⟩,
    ⟨rfl, rfl⟩, .inr ⟨waveOne, pick_in_store 0, .inr (by decide)⟩⟩

/-- PerLatchResult: channel 3 and a tone channel, a period that becomes 0 and one that does not. -/
theorem test_hyp_PerLatchResult :
    (State.reset.Ready ∧ Derivable Config.params State.reset 3 (withLowPeriod 0 (State.reset.ch 3))) ∧
    (playing.Ready ∧ Derivable Config.params playing 2 (withLowPeriod 15 (playing.ch 2))) :=
  ⟨⟨⟨rfl, rfl⟩, .inl rfl⟩, playing_ready, .inr ⟨squareWave, rfl, .inr (by decide)⟩⟩

/-- VolContResult: the first and the last channel. -/
theorem test_hyp_VolContResult :
    (State.reset.Ready ∧ ((0 : Channel).val = State.reset.lastLatch.toNat / 32 % 4) ∧
      Derivable Config.params State.reset 0 (withVolume 0 (State.reset.ch 0))) ∧
    ((playing.setLastLatch 0xFF).Ready ∧ ((3 : Channel).val = (playing.setLastLatch 0xFF).lastLatch.toNat / 32 % 4) ∧
      Derivable Config.params (playing.setLastLatch 0xFF) 3 (withVolume 15 (playing.ch 3))) :=
  ⟨⟨⟨rfl, rfl⟩, by decide, .inl rfl⟩, ⟨rfl, rfl⟩, by decide, .inr ⟨squareWave, rfl, .inr (by decide)⟩⟩

theorem test_hyp_PerContResult :
    (State.reset.Ready ∧ ((0 : Channel).val = State.reset.lastLatch.toNat / 32 % 4) ∧
      Derivable Config.params State.reset 0 (withHighPeriod 0 (State.reset.ch 0))) ∧
    ((playing.setLastLatch 0xEF).Ready ∧ ((3 : Channel).val = (playing.setLastLatch 0xEF).lastLatch.toNat / 32 % 4) ∧
      Derivable Config.params (playing.setLastLatch 0xEF) 3 (withHighPeriod 0x3F (playing.ch 3))) :=
  ⟨⟨⟨rfl, rfl⟩, by decide, .inl rfl⟩, ⟨rfl, rfl⟩, by decide, .inr ⟨squareWave, rfl, .inr (by decide)⟩⟩

theorem test_hyp_WriteStereoResult : State.reset.Ready := ⟨rfl, rfl⟩

/-- An attack on a channel with a period answers where the pick is in the store. -/
theorem attack_answers : ∃ t, exec (.volLatch 0 0) attacked = .next t := by
  obtain ⟨b, hb, -⟩ := rederive_after_completes (P := Config.params) (c := 0) (a := withVolume 0 (attacked.ch 0))
    (u := prologue .reg (volLatchByte 0 0) attacked) (.inr ⟨waveOne, pick_in_store 0, .inr (by decide)⟩)
  show ∃ t, whenReady attacked (volLatch Config.params 0 0) = .next t
  rw [whenReady_of_ready ⟨rfl, rfl⟩, volLatch_eq, hb]
  exact ⟨_, rfl⟩

/-- AttackRestartsTheWaveform: three steps louder with and without a period, and two steps louder. -/
theorem test_hyp_AttackRestartsTheWaveform :
    ((∃ t, exec (.volLatch 0 0) attacked = .next t) ∧
      (attacked.ch 0).volume.toNat + 2 < (~~~(0 : BitVec 4)).toNat ∧ (attacked.ch 0).period ≠ 0) ∧
    ((∃ t, exec (.volCont 0 12) State.reset = .next t) ∧ latchedChannel State.reset.lastLatch = 0 ∧
      (State.reset.ch 0).volume.toNat + 2 < (~~~(12 : BitVec 4)).toNat) ∧
    ((∃ t, exec (.volLatch 0 3) playing = .next t) ∧
      ¬ (playing.ch 0).volume.toNat + 2 < (~~~(3 : BitVec 4)).toNat ∧ (playing.ch 0).waveformRef = some 0) :=
  ⟨⟨attack_answers, by decide, by decide⟩, ⟨⟨_, rfl⟩, by decide, by decide⟩, ⟨_, rfl⟩, by decide, rfl⟩

theorem test_hyp_TwoBytesSetTheWholePeriod :
    ∃ t u, exec (.perLatch 3 15) playing = .next t ∧ exec (.perCont 0 0x3F) t = .next u := ⟨_, _, rfl, rfl⟩

/-- RegisterFormFaults: a waveform outside the store, and the shortest waveform whose product reaches 2^31. -/
theorem test_hyp_RegisterFormFaults :
    (State.reset.Ready ∧ registerTarget State.reset (.perLatch 0 1) = some (0, withLowPeriod 1 (State.reset.ch 0)) ∧
      (withLowPeriod 1 (State.reset.ch 0)).period ≠ 0 ∧
      State.reset.waveStore[waveformIndex Config.params 0 (withLowPeriod 1 (State.reset.ch 0))]? = none) ∧
    ((826910 : Nat) * playing.clockIncrement ≥ 2 ^ 31 ∧ 826909 * playing.clockIncrement < 2 ^ 31) ∧
    ({ playing with waveStore := [⟨[], 826910, 1, 1⟩] } : State).waveStore[waveformIndex Config.params 0
      (withLowPeriod 1 (playing.ch 0))]? = some ⟨[], 826910, 1, 1⟩ :=
  ⟨⟨⟨rfl, rfl⟩, rfl, by decide, rfl⟩, by decide, rfl⟩

theorem test_hyp_RegisterFormFrame : (∃ a t, registerTarget playing (.volLatch 0 5) = some (0, a) ∧
      exec (.volLatch 0 5) playing = .next t) ∧
    ∃ a t, registerTarget playing (.perLatch 3 7) = some (3, a) ∧ exec (.perLatch 3 7) playing = .next t :=
  ⟨⟨_, _, rfl, rfl⟩, _, _, rfl, rfl⟩

theorem test_hyp_RecalcAllResult : playing.Ready ∧ ∀ c, Derivable Config.params playing c (playing.ch c) :=
  ⟨playing_ready, fun c => match c with
    | 0 => .inr ⟨squareWave, rfl, .inr (by decide)⟩
    | 1 => .inr ⟨squareWave, rfl, .inr (by decide)⟩
    | 2 => .inr ⟨squareWave, rfl, .inr (by decide)⟩
    | 3 => .inr ⟨squareWave, rfl, .inr (by decide)⟩⟩

theorem test_hyp_RecalcAllTwiceIsOnce : ∃ t, exec .recalcAll playing = .next t := ⟨_, rfl⟩

/-- SetRateResult: the rate 0, and the least rate, 1, on a machine whose channels are inert. -/
theorem test_hyp_SetRateResult : State.reset.Ready ∧ ∀ c, Derivable Config.params
    { State.reset with clockIncrement := Config.params.chipClockHz * 32 / 1 } c (State.reset.ch c) :=
  ⟨⟨rfl, rfl⟩, fun c => .inl (by revert c; decide)⟩

/-- RecalculationFaults: at channel 3, the others derivable, a waveform outside the store; at channel 0 the shortest
waveform whose product reaches 2^31, with the clock increment of 44100 Hz. -/
theorem test_hyp_RecalculationFaults :
    ((∀ e : Channel, e < 3 → Derivable Config.params (playing.setCh 3 ⟨0, 1, some 5, 0, 0, 0⟩) e
        ((playing.setCh 3 ⟨0, 1, some 5, 0, 0, 0⟩).ch e)) ∧
      DerivationRaises Config.params (playing.setCh 3 ⟨0, 1, some 5, 0, 0, 0⟩) 3 ⟨0, 1, some 5, 0, 0, 0⟩ .romIndex) ∧
    DerivationRaises Config.params { playing with
      waveStore := [⟨[], 826910, 1, 1⟩], clockIncrement := Config.params.chipClockHz * 32 / 44100 } 0 (playing.ch 0)
      .arithRange := by
  refine ⟨⟨fun e he => ?_, by decide, .inl ⟨rfl, rfl⟩⟩, by decide, .inr ⟨rfl, _, rfl, by decide, by decide⟩⟩
  match e with
  | 0 => exact .inr ⟨squareWave, rfl, .inr (by decide)⟩
  | 1 => exact .inr ⟨squareWave, rfl, .inr (by decide)⟩
  | 2 => exact .inr ⟨squareWave, rfl, .inr (by decide)⟩
  | 3 => exact absurd he (by decide)

/-- InitResult: an instance before INIT and one after it; a clock at 2^31. -/
theorem test_hyp_InitResult : State.fresh.fault = none ∧ State.reset.fault = none ∧ (1 : Nat) ≠ 0 ∧
    2 ^ 31 ≤ ({ fixture with chipClockHz := 2 ^ 26 } : Params).chipClockHz * 32 := by decide

/-- A record of zeros with the ring's own number of entries fits; one with volume 16 does not. -/
theorem test_hyp_LoadStateResult : State.reset.Ready ∧
    RecordFits Config.params State.reset.waveStore (zeroRecord Config.params.echoLen) ∧
    ¬ RecordFits Config.params State.reset.waveStore
      { zeroRecord Config.params.echoLen with chan := Quad.all { zeroChannel with volume := 16 } } := by
  refine ⟨⟨rfl, rfl⟩, ⟨fun c => ?_, by decide, by decide, by decide, List.length_replicate, by decide, ?_⟩, ?_⟩
  · have h : (zeroRecord Config.params.echoLen).chan.get c = zeroChannel := Quad.get_all _ c
    rw [h]
    exact ⟨by decide, by decide, by decide, by decide, by decide, fun k hk => by cases hk⟩
  · exact Int.natCast_pos.2 (Nat.two_pow_pos _)
  · intro h
    exact absurd (h.1 0).1.2 (by decide)

/-- A channel like those of `playing`, in any state whose store begins with the square waveform. -/
theorem square_plays {P : Params} {s : State} (h : s.waveStore[0]? = some squareWave) :
    Playable P s ⟨10, 5, some 0, 0, 2597, 768⟩ :=
  Playable.of_wf rfl h (by decide) (by decide)

theorem playing_plays {P : Params} (c : Channel) : Playable P playing (playing.ch c) := by
  have hc : playing.ch c = ⟨10, 5, some 0, 0, 2597, 768⟩ := Quad.get_all _ c
  rw [hc]; exact square_plays rfl

/-- TickResult: a channel on each of the four paths, and the noise phase in range. -/
theorem test_hyp_TickResult : playing.Ready ∧ (∀ c : Channel, c ≠ 3 → Playable Config.params playing (playing.ch c)) ∧
    NoiseInRange playing ∧ Playable Config.params playing ⟨0, 0, none, 0, 0, 0⟩ ∧
    Playable Config.params playing ⟨15, 4, none, 0, 0, 4096⟩ ∧ Playable Config.params playing ⟨15, 5, none, 0, 0, 4096⟩ :=
  ⟨playing_ready, fun c _ => playing_plays c, by show (playing.ch 3).position + noiseRate playing < 2 ^ 31; decide,
    .inl rfl, .inr (.inl (by decide)), .inr (.inr (.inl rfl))⟩

theorem test_hyp_RewindLandsInside : waveThree.wf = true ∧ waveFour.wf = true := by decide

theorem playable_before (x : ChannelState) (e : Channel) (he : e < 2) (st : List Waveform) (hst : st[0]? = some squareWave) :
    Playable Config.params ({ playing with waveStore := st }.setCh 2 x)
      (({ playing with waveStore := st }.setCh 2 x).ch e) := by
  match e with
  | 0 => exact square_plays hst
  | 1 => exact square_plays hst
  | 2 => exact absurd he (by decide)
  | 3 => exact absurd he (by decide)

/-- A store of the square waveform and one other, read by channel 2. -/
def withOther (w : Waveform) (pos : Nat) : State :=
  { playing with waveStore := [squareWave, w] }.setCh 2 ⟨10, 5, some 1, pos, 1, 768⟩

theorem test_hyp_TickIsStuckOnEndlessRewind : (withOther endlessWave 4096).Ready ∧ (2 : Channel) ≠ 3 ∧
    (∀ e : Channel, e < 2 → Playable Config.params (withOther endlessWave 4096) ((withOther endlessWave 4096).ch e)) ∧
    ((withOther endlessWave 4096).ch 2).volumeScaled ≠ 0 ∧ 4 < ((withOther endlessWave 4096).ch 2).period.toNat ∧
    ((withOther endlessWave 4096).ch 2).waveformRef = some 1 ∧
    (withOther endlessWave 4096).waveStore[1]? = some endlessWave ∧ endlessWave.loopDistance = 0 ∧
    endlessWave.length ≤ ((withOther endlessWave 4096).ch 2).position >>> 10 :=
  ⟨⟨rfl, rfl⟩, by decide, fun e he => playable_before _ e he _ rfl, by decide, by decide, rfl, rfl, rfl, by decide⟩

/-- TickRomIndexFaults: no such waveform; length 0; V-F2; data shorter than the length, without and after a rewind. -/
theorem test_hyp_TickRomIndexFaults :
    (∀ w pos, (withOther w pos).Ready ∧
      (∀ e : Channel, e < 2 → Playable Config.params (withOther w pos) ((withOther w pos).ch e)) ∧
      ((withOther w pos).ch 2).volumeScaled ≠ 0 ∧ 4 < ((withOther w pos).ch 2).period.toNat ∧
      ((withOther w pos).ch 2).waveformRef = some 1 ∧ (withOther w pos).waveStore[1]? = some w) ∧
    [squareWave][1]? = none ∧
    ((⟨[], 0, 1, 1⟩ : Waveform).length = 0 ∧ (⟨[], 0, 1, 1⟩ : Waveform).loopDistance ≠ 0) ∧
    RewindsBelow Config.params overLoop 2076 ∧
    (Rewinds Config.params ⟨[128], 2, 1, 1⟩ 1024 1024 ∧ (⟨[128], 2, 1, 1⟩ : Waveform).data.length ≤ 1024 >>> 10) ∧
    (∃ pos, Rewinds Config.params ⟨[128], 2, 1, 1⟩ 2048 pos ∧ (⟨[128], 2, 1, 1⟩ : Waveform).data.length ≤ pos >>> 10) := by
  have hidx : Config.params.loopRemask (2048 - 1 * 2 ^ 10) >>> 10 = 1 := loopRemask_index _ _
  refine ⟨fun w pos => ⟨⟨rfl, rfl⟩, fun e he => playable_before _ e he _ rfl, show 768 ≠ 0 by decide,
      show 4 < 5 by decide, rfl, rfl⟩, rfl, by decide, .fall _ (by decide) (by decide) (by decide),
    ⟨.stop _ (by decide), by decide⟩, Config.params.loopRemask (2048 - 1 * 2 ^ 10), ?_, ?_⟩
  · exact .pass _ _ (by decide) (by decide) (by decide) (.stop _ (by rw [hidx]; decide))
  · rw [hidx]; decide

/-- TickArithRangeFaults: channel 2's position reaches 2^31 exactly; so does the noise phase, in mode 0. -/
theorem test_hyp_TickArithRangeFaults :
    ((playing.setCh 2 ⟨10, 5, some 0, 0, 2 ^ 31, 768⟩).Ready ∧ (2 : Channel) ≠ 3 ∧
      (∀ e : Channel, e < 2 → Playable Config.params (playing.setCh 2 ⟨10, 5, some 0, 0, 2 ^ 31, 768⟩)
        ((playing.setCh 2 ⟨10, 5, some 0, 0, 2 ^ 31, 768⟩).ch e)) ∧
      playing.waveStore[0]? = some squareWave ∧
      ∃ p, ToneReads Config.params squareWave ⟨10, 5, some 0, 0, 2 ^ 31, 768⟩ p (2 ^ 31)) ∧
    ((withChannel 3 ⟨0, 0, none, 2 ^ 31 - 20776, 0, 0⟩ playing).Ready ∧
      (∀ c : Channel, c ≠ 3 → Playable Config.params (withChannel 3 ⟨0, 0, none, 2 ^ 31 - 20776, 0, 0⟩ playing)
        ((withChannel 3 ⟨0, 0, none, 2 ^ 31 - 20776, 0, 0⟩ playing).ch c)) ∧
      ((withChannel 3 ⟨0, 0, none, 2 ^ 31 - 20776, 0, 0⟩ playing).ch 3).position +
        noiseRate (withChannel 3 ⟨0, 0, none, 2 ^ 31 - 20776, 0, 0⟩ playing) = 2 ^ 31) := by
  refine ⟨⟨⟨rfl, rfl⟩, by decide, fun e he => playable_before _ e he fixtureStore rfl, rfl, _, 0, 255,
    .stop _ (by decide), rfl, rfl, by decide⟩, ⟨rfl, rfl⟩, fun c hc => ?_, by decide⟩
  match c with
  | 0 => exact square_plays rfl
  | 1 => exact square_plays rfl
  | 2 => exact square_plays rfl
  | 3 => exact absurd rfl hc

/-- A TICK of `playing` answers, with the enhancement on or off. -/
theorem playing_ticks (enh : Bool) : ∃ t, exec .tick { playing with enhancementEnabled := enh } = .next t := by
  obtain ⟨-, hp, hn, -⟩ := test_hyp_TickResult
  obtain ⟨t, ht⟩ := tick_completes (P := Config.params) (s := { playing with enhancementEnabled := enh }) hp hn
  exact ⟨t, (whenReady_of_ready (s := { playing with enhancementEnabled := enh }) ⟨rfl, rfl⟩).trans ht⟩

/-- NoiseAdvancesOnEveryTick: a TICK that answers, and the least phase that reaches 2^31 at rate 20776. -/
theorem test_hyp_NoiseAdvancesOnEveryTick : (∃ t, exec .tick playing = .next t) ∧
    ((withChannel 3 ⟨0, 0, none, 2 ^ 31 - 20776, 0, 0⟩ started).ch 3).position +
      noiseRate (withChannel 3 ⟨0, 0, none, 2 ^ 31 - 20776, 0, 0⟩ started) = 2 ^ 31 :=
  ⟨playing_ticks false, by decide⟩

theorem test_hyp_SixteenStepsRotateBack : (0xFFFF : BitVec 17).getLsbD 16 = false := by decide

theorem test_hyp_EchoRingAdvance : playing.echo.wf = true ∧ playing.writeCursor < Config.params.echoLen ∧
    (∃ t, exec .tick { playing with enhancementEnabled := true } = .next t) ∧
    ∃ t, exec .tick { playing with enhancementEnabled := false } = .next t :=
  ⟨rfl, Nat.two_pow_pos _, playing_ticks true, playing_ticks false⟩

theorem test_hyp_TickFrame : ∃ t, exec .tick { playing with enhancementEnabled := false } = .next t := playing_ticks false

/-- ToneSampleReadsOnlyItsChannel: channel 0 of the fixture plays, beside a state that differs in everything else. -/
theorem test_hyp_ToneSampleReadsOnlyItsChannel : (∃ t p, toneSample fixture 0 playing = .next (t, p)) ∧
    (withChannel 3 ⟨15, 7, none, 5, 0, 4096⟩ (playing.setLfsr 0x8000)).ch 0 = playing.ch 0 ∧
    (withChannel 3 ⟨15, 7, none, 5, 0, 4096⟩ (playing.setLfsr 0x8000)).waveStore = playing.waveStore :=
  ⟨⟨_, _, rfl⟩, rfl, rfl⟩

theorem test_hyp_StereoMaskReachesOnlyTheMix : ∃ t, exec .tick { playing with enhancementEnabled := true } = .next t :=
  playing_ticks true

theorem test_hyp_TickAccumulatesItsPair : ∃ t, exec .tick { playing with enhancementEnabled := true } = .next t :=
  playing_ticks true

/-- SilentTickReturnsZero: the reset state, whose noise channel is silent too. -/
theorem test_hyp_SilentTickReturnsZero : started.Ready ∧ AllSilent started ∧ NoiseInRange started :=
  ⟨⟨rfl, rfl⟩, ⟨by decide, rfl⟩, by show (started.ch 3).position + noiseRate started < 2 ^ 31; decide⟩

/-- SilentUntilAVolumeIsWritten: INIT, then a TICK and a period write on the quiet machine. -/
theorem test_hyp_SilentUntilAVolumeIsWritten : (∃ t, exec (.init 44100 true fixtureStore) State.fresh = .next t) ∧
    Quiet started ∧ (∃ t, exec .tick started = .next t) ∧ ∃ t, exec (.perLatch 3 0) started = .next t := by
  refine ⟨⟨_, rfl⟩, ⟨by decide, rfl⟩, ?_, _, rfl⟩
  obtain ⟨hr, hs, hn⟩ := test_hyp_SilentTickReturnsZero
  obtain ⟨t, ht⟩ := tick_completes (P := Config.params) (fun c _ => .inl (hs.1 c)) hn
  exact ⟨t, (whenReady_of_ready hr).trans ht⟩

/-- A waveform of any positive length whose data covers it is well formed (R52). -/
theorem replicate_wf {n : Nat} (h : 1 ≤ n) : (⟨List.replicate n 128, n, n, 1⟩ : Waveform).wf = true := by
  simp only [Waveform.wf, List.length_replicate, Nat.le_refl, decide_true, Bool.and_self, decide_eq_true h]

/-- The longest waveform of R205. -/
def longestWave : Waveform := ⟨List.replicate 826909 128, 826909, 826909, 1⟩

theorem test_hyp_NoRangeFaultAtNominalRate :
    ({ playing with waveStore := [longestWave] } : State).clockIncrement = 2597 ∧ (playing.ch 0).waveformRef = some 0 ∧
    ({ playing with waveStore := [longestWave] } : State).waveStore[0]? = some longestWave ∧ longestWave.wf = true ∧
    longestWave.length ≤ 826909 ∧ (playing.ch 0).increment ≤ longestWave.length * 2597 / (playing.ch 0).period.toNat := by
  exact ⟨by decide, rfl, rfl, replicate_wf (by decide), Nat.le_refl _, by decide⟩

/-- OnlyTheDecoderWritesTheBank, OnlyTickReachesTheTotals, ConfigurationWriters: the operations named answer. -/
theorem test_hyp_OnlyTheDecoderWritesTheBank : (∃ t, exec .tick playing = .next t) ∧
    (∃ t, exec .recalcAll playing = .next t) ∧ ∃ t, exec (.setRate 48000) playing = .next t :=
  ⟨playing_ticks false, ⟨_, rfl⟩, _, rfl⟩

theorem test_hyp_ConfigurationWriters : ∃ t, exec (.volLatch 0 5) playing = .next t := ⟨_, rfl⟩

/-- EchoAndLfsrWriters: a reseed, a write that leaves the LFSR, a TICK without the enhancement. -/
theorem test_hyp_EchoAndLfsrWriters : (∃ t, exec (.perLatch 3 0) playing = .next t) ∧
    (∃ t, exec (.perLatch 2 0) playing = .next t) ∧
    ((∃ t, exec .tick playing = .next t) ∧ playing.enhancementEnabled = false) :=
  ⟨⟨_, rfl⟩, ⟨_, rfl⟩, playing_ticks false, rfl⟩

theorem test_hyp_OnlyTickReachesTheTotals : (∃ t, exec .recalcAll playing = .next t) ∧ Instr.recalcAll ≠ Instr.tick :=
  ⟨⟨_, rfl⟩, by decide⟩

theorem test_hyp_RefusedBeforeInit : State.fresh.fault = none ∧ State.fresh.initialised = false := by decide

theorem test_hyp_FaultedStateHasNoStep : ({ State.reset with fault := some .romIndex } : State).fault = some .romIndex := rfl

/-- RaisedFaultIsRecorded, FaultReasonSources: each reason is raised. -/
theorem test_hyp_RaisedFaultIsRecorded : (∃ t, exec (.setRate 0) State.reset = .fault (.raised .badRate t)) ∧
    (∃ t, exec (.init 0 false []) State.fresh = .fault (.raised .badRate t)) ∧
    (∃ t, exec (.perLatch 0 1) State.reset = .fault (.raised .romIndex t)) ∧
    ∃ t, exec .recalcAll { playing with waveStore := [⟨[], 826910, 1, 1⟩] } = .fault (.raised .arithRange t) :=
  ⟨⟨_, rfl⟩, ⟨_, rfl⟩, ⟨_, rfl⟩, _, rfl⟩

theorem test_hyp_FaultReasonSources : ∃ t, exec (.loadState { zeroRecord 1 with writeCursor := -1 }) State.reset =
    .fault (.raised .badState t) := ⟨_, rfl⟩

/-- EveryStepKeepsTheInvariant: a state with operations pending, whose step answers. -/
theorem test_hyp_EveryStepKeepsTheInvariant : StateInv Config.params { playing with pending := [.tick] } ∧
    ∃ t, step { playing with pending := [.tick] } = .next t := by
  have hc : ∀ c, ({ playing with pending := [.tick] } : State).ch c = ⟨10, 5, some 0, 0, 2597, 768⟩ := fun c => Quad.get_all _ c
  refine ⟨⟨rfl, rfl, Nat.two_pow_pos _, ?_, ?_, ?_, rfl, fun _ => ⟨by decide, rfl⟩⟩, ?_⟩
  · intro c; rw [hc]; decide
  · intro c; rw [hc]; decide
  · intro c k h; rw [hc] at h; cases h; decide
  · obtain ⟨t, ht⟩ := playing_ticks false; exact ⟨t, ht⟩

/-- ScaledVolumeFollowsTheVolume: the machine after INIT, and a period write on it. -/
theorem test_hyp_ScaledVolumeFollowsTheVolume : Scaled Config.params started ∧
    (∃ t, exec (.perLatch 3 0) started = .next t) ∧ ∃ t, exec .recalcAll started = .next t := by
  refine ⟨fun c => ?_, ⟨_, rfl⟩, _, rfl⟩
  have hc : started.ch c = ChannelState.reset := Quad.get_all _ c
  rw [hc]; rfl

/-- PeriodImpliesWaveform: a pick; an attack on a channel without a period, whose assignment goes; INIT; SET_RATE. -/
theorem test_hyp_PeriodImpliesWaveform :
    (∃ t, recalcIncrement fixture 0 playing = .next t ∧ (t.ch 0).period ≠ 0) ∧
    (∃ t, exec (.volLatch 0 0) (withChannel 0 ⟨0, 0, some 0, 0, 0, 0⟩ started) = .next t ∧
      ((withChannel 0 ⟨0, 0, some 0, 0, 0, 0⟩ started).ch 0).waveformRef ≠ none ∧ (t.ch 0).waveformRef = none) ∧
    (∃ t, exec (.init 44100 true fixtureStore) State.fresh = .next t) ∧
    (Assigned playing ∧ ∃ t, exec (.setRate 48000) playing = .next t) := by
  refine ⟨⟨_, rfl, by decide⟩, ⟨_, rfl, by decide, rfl⟩, ⟨_, rfl⟩, fun c => ?_, _, rfl⟩
  have hc : playing.ch c = ⟨10, 5, some 0, 0, 2597, 768⟩ := Quad.get_all _ c
  rw [hc]; decide

theorem test_hyp_LfsrTopBitStaysClear : playing.lfsr.getLsbD 16 = false ∧ ∃ t, exec .tick playing = .next t :=
  ⟨by decide, playing_ticks false⟩

theorem test_hyp_EchoEntriesStayBounded : (∀ x, fixture.echoScale x = 3 * x / 4) ∧ playing.echo.wf = true ∧
    (∀ c, (playing.ch c).volumeScaled ≤ 0x1000) ∧ EchoBounded playing ∧
    ((-32768 : Int) ≤ -32768 ∧ (32512 : Int) ≤ 32512) ∧ ∃ t, tick fixture { playing with enhancementEnabled := true } = .next t := by
  refine ⟨fun x => ?_, rfl, fun c => ?_, fun i => ?_, by decide, ?_⟩
  · simp only [Params.echoScale, fixture, shiftDown_eq_div]
    split <;> omega
  · have hc : playing.ch c = ⟨10, 5, some 0, 0, 2597, 768⟩ := Quad.get_all _ c
    rw [hc]; decide
  · show -39322 ≤ (0 : Int) ∧ (0 : Int) ≤ 39013; decide
  · obtain ⟨-, -, hn, -⟩ := test_hyp_TickResult
    exact tick_completes (s := { playing with enhancementEnabled := true }) (fun c _ => playing_plays c) hn

theorem test_hyp_AttenTableIsAnyLegalTable : (fun v : BitVec 4 => fixtureTable.getD v.toNat 0) 0 = 0 ∧
    (∀ u v : BitVec 4, u.toNat ≤ v.toNat → fixtureTable.getD u.toNat 0 ≤ fixtureTable.getD v.toNat 0) ∧
    ∀ v : BitVec 4, fixtureTable.getD v.toNat 0 ≤ 0x100 := by decide

/-- LoopRemaskIsAnyLegalFunction: the identity is one (R163). -/
theorem test_hyp_LoopRemaskIsAnyLegalFunction : ∀ p : Nat, (fun p => p) p >>> 10 = p >>> 10 := fun _ => rfl

end Sys2Proof.Tests
end

section
/-! SUPPORT. What an operation that answers has done, said once for all ten operations (`Effect`, `exec_effect`), and
the whole-machine rules of 10_state.md that follow from it case by case. -/

namespace Sys2Proof.Machine

/-! ## The effect of an operation -/

theorem forall_channel {p : Channel → Prop} : (∀ c, p c) ↔ p 0 ∧ p 1 ∧ p 2 ∧ p 3 := by
  simp [Fin.forall_fin_succ]

/-- What a TICK makes of the echo ring `m` and its cursor `k` (R32, R55, R170): both are held with the enhancement
off; with it on, one entry inside the ring is written and the cursor stays in the ring. -/
inductive RingAfterTick (P : Params) (enhanced : Bool) (m : Memory) (k : Nat) : Memory → Nat → Prop where
  | held (off : enhanced = false) : RingAfterTick P enhanced m k m k
  | advanced {i k' : Nat} (v : Int) (on : enhanced = true) (inside : i < P.echoLen) (cursor : k' < P.echoLen) :
      RingAfterTick P enhanced m k (m.write i v) k'

/-- What an operation that answers leaves of `s`: one case for the four register forms together, which share the
shape of `registerForm_cases`, and one for each other operation. -/
inductive Effect (s : State) : Instr → State → Prop where
  | register {i : Instr} {c : Channel} {a b : ChannelState} {latch : Byte} {lf : BitVec 17}
      (target : registerTarget s i = some (c, a)) (rederived : Rederived Config.params s c a b)
      (latchKept : (∀ d, i ≠ .volLatch c d) → (∀ p, i ≠ .perLatch c p) → latch = s.lastLatch)
      (lfsr : lf = if ∃ p, i = .perLatch 3 p then 1 else s.lfsr) :
      Effect s i { s with
        chan := s.chan.set c b
        lastLatch := latch
        lfsr := lf
        events := s.events ++ prologueEvents (encode i) }
  | stereo (r l : BitVec 4) : Effect s (.writeStereo r l)
      ((prologue .stereo (stereoByte r l) s).setStereoMask (storedMask (stereoByte r l)))
  | tick {q : Quad ChannelState} {m : Memory} {k : Nat} (left right : Int)
      (moved : ∀ c, ∃ n, q.get c = { s.ch c with position := n } ∧ (n = (s.ch c).position ∨ n < 2 ^ 31))
      (ring : RingAfterTick Config.params s.enhancementEnabled s.echo s.writeCursor m k) :
      Effect s .tick { s with
        chan := q
        lfsr := (lfsrStep (feedbackSelect (s.ch 3).period))^[((s.ch 3).position + noiseRate s) / 0x400] s.lfsr
        echo := m
        writeCursor := k
        accLeft := s.accLeft + left
        accRight := s.accRight + right
        samples := s.samples ++ [(left, right)] }
  | init {rate : Nat} (enh : Bool) (store : List Waveform) (positive : rate ≠ 0) :
      Effect s (.init rate enh store) (initialState Config.params rate enh store s)
  | setRate {rate : Nat} {q : Quad ChannelState} (positive : rate ≠ 0)
      (rederived : ∀ c, Rederived Config.params (s.setRate rate (Config.params.clockIncrementAt rate)) c (s.ch c)
        (q.get c)) :
      Effect s (.setRate rate) { s.setRate rate (Config.params.clockIncrementAt rate) with chan := q }
  | recalcAll {q : Quad ChannelState} (rederived : ∀ c, Rederived Config.params s c (s.ch c) (q.get c)) :
      Effect s .recalcAll { s with chan := q }
  | loadState {r : SavedState} (accepted : acceptsRecord Config.params s.waveStore r = true) :
      Effect s (.loadState r) (loadedState r s)

theorem registerForm_effect {i : Instr} {s t : State} {c : Channel} {a : ChannelState}
    (ht : registerTarget s i = some (c, a)) (h : exec i s = .next t) : Effect s i t := by
  obtain ⟨b, latch, lf, hR, rfl, hlatch, hkept, hseeded⟩ := registerForm_cases ht h
  refine .register ht hR hlatch ?_
  split
  · rename_i hseed
    obtain ⟨p, hp⟩ := hseed
    exact hseeded p hp
  · rename_i hseed
    exact hkept fun p hp => hseed ⟨p, hp⟩

/-- The last stages of TICK change the ring and its cursor as `RingAfterTick` says, and deliver one pair. -/
theorem mixDown_changes (P : Params) (p : Mix) (s : State) : ∃ m k left right,
    RingAfterTick P s.enhancementEnabled s.echo s.writeCursor m k ∧
      mixDown P p s = (s.setEcho m k).deliver left right := by
  rw [mixDown_eq]
  split
  · rename_i hon
    exact ⟨_, _, _, _, .advanced _ hon (echoIndex_lt _ _) (echoIndex_lt _ _), rfl⟩
  · rename_i hoff
    exact ⟨_, _, _, _, .held (Bool.eq_false_iff.2 hoff), rfl⟩

theorem tick_effect {s t : State} (h : exec .tick s = .next t) : Effect s .tick t := by
  obtain ⟨-, h⟩ := whenReady_eq_next h
  obtain ⟨p, next, htone, -, -, hphase, rfl⟩ := tick_changes h
  obtain ⟨m, k, left, right, hring, hmix⟩ := mixDown_changes Config.params p _
  rw [hmix]
  refine .tick left right (forall_channel.2 ⟨⟨_, rfl, ?_⟩, ⟨_, rfl, ?_⟩, ⟨_, rfl, ?_⟩, ⟨_, rfl, ?_⟩⟩) hring
  · exact (htone 0 (by decide)).2
  · exact (htone 1 (by decide)).2
  · exact (htone 2 (by decide)).2
  · exact .inr (by omega)

theorem setRate_effect {rate : Nat} {s t : State} (h : exec (.setRate rate) s = .next t) :
    Effect s (.setRate rate) t := by
  obtain ⟨-, h⟩ := whenReady_eq_next h
  unfold Machine.setRate at h
  split at h
  · cases h
  · rename_i hrate
    obtain ⟨q, rfl, hR⟩ := recalcAll_cases h
    exact .setRate hrate hR

theorem loadState_effect {r : SavedState} {s t : State} (h : exec (.loadState r) s = .next t) :
    Effect s (.loadState r) t := by
  obtain ⟨-, h⟩ := whenReady_eq_next h
  unfold Machine.loadState at h
  split at h
  · rename_i haccepted
    cases h
    exact .loadState haccepted
  · cases h

/-- Whatever operation answers, it has had its effect. -/
theorem exec_effect {i : Instr} {s t : State} (h : exec i s = .next t) : Effect s i t := by
  cases i with
  | volLatch c d => exact registerForm_effect rfl h
  | perLatch c p => exact registerForm_effect rfl h
  | volCont x d => exact registerForm_effect rfl h
  | perCont x p => exact registerForm_effect rfl h
  | writeStereo r l =>
    obtain ⟨-, h⟩ := whenReady_eq_next h
    cases h
    exact .stereo r l
  | tick => exact tick_effect h
  | init rate enh store =>
    obtain ⟨-, h⟩ := unlessFaulted_eq_next h
    obtain ⟨hrate, -, rfl⟩ := initialise_eq_next.1 h
    exact .init enh store hrate
  | setRate rate => exact setRate_effect h
  | recalcAll =>
    obtain ⟨-, h⟩ := whenReady_eq_next h
    obtain ⟨q, rfl, hR⟩ := recalcAll_cases h
    exact .recalcAll hR
  | loadState r => exact loadState_effect h

/-- Before its re-derivation a register form has kept its channel's position, and its waveform unless an attack
cleared it (R103 to R107). -/
theorem registerTarget_keeps {s : State} {i : Instr} {c : Channel} {a : ChannelState}
    (h : registerTarget s i = some (c, a)) : a.position = (s.ch c).position ∧
      (a.waveformRef = none ∨ a.waveformRef = (s.ch c).waveformRef) := by
  cases i with
  | volLatch c' d => cases h; exact ⟨rfl, ite_eq_or_eq _ _ _⟩
  | volCont x d => cases h; exact ⟨rfl, ite_eq_or_eq _ _ _⟩
  | perLatch c' p => cases h; exact ⟨rfl, .inr rfl⟩
  | perCont x p => cases h; exact ⟨rfl, .inr rfl⟩
  | _ => cases h

@[simp] theorem initialState_ch (P : Params) (rate : Nat) (enh : Bool) (store : List Waveform) (s : State)
    (c : Channel) : (initialState P rate enh store s).ch c = ChannelState.reset := Quad.get_all _ c

/-! ## Who writes which element -/

/-- Settles O42: by the effect of each of the three operations; a re-derivation keeps both registers of its channel,
and a TICK moves positions alone. -/
theorem onlyTheDecoderWritesTheBank : Obligations.OnlyTheDecoderWritesTheBank := by
  unfold Obligations.OnlyTheDecoderWritesTheBank
  rintro i s t h (rfl | rfl | ⟨rate, rfl⟩)
  · cases exec_effect h with
    | register target => cases target
    | @tick q _ _ _ _ moved =>
      refine ⟨fun c => ?_, rfl, rfl⟩
      obtain ⟨n, hn, -⟩ := moved c
      show (q.get c).volume = _ ∧ (q.get c).period = _
      rw [hn]
      exact ⟨rfl, rfl⟩
  · cases exec_effect h with
    | register target => cases target
    | recalcAll hR => exact ⟨fun c => ⟨(hR c).volume, (hR c).period⟩, rfl, rfl⟩
  · cases exec_effect h with
    | register target => cases target
    | setRate _ hR => exact ⟨fun c => ⟨(hR c).volume, (hR c).period⟩, rfl, rfl⟩

/-- Settles O43: no effect but INIT's names the flag, the store or the mark, and none but INIT's and SET_RATE's the
rate. -/
theorem configurationWriters : Obligations.ConfigurationWriters := by
  unfold Obligations.ConfigurationWriters
  intro i s t h hinit
  cases exec_effect h with
  | init enh store _ => exact absurd rfl (hinit _ enh store)
  | setRate => exact ⟨rfl, rfl, rfl, fun hrate => absurd rfl (hrate _)⟩
  | register | stereo | tick | recalcAll | loadState => exact ⟨rfl, rfl, rfl, fun _ => ⟨rfl, rfl⟩⟩

/-- Settles O44: a register form is where the LFSR may be reseeded, a TICK where the ring may advance; every other
operation keeps all three elements. -/
theorem echoAndLfsrWriters : Obligations.EchoAndLfsrWriters := by
  unfold Obligations.EchoAndLfsrWriters
  intro i s t h hinit hload
  cases exec_effect h with
  | register _ _ _ hlfsr => exact ⟨fun _ => ⟨fun _ => rfl, rfl⟩, fun _ => hlfsr⟩
  | tick _ _ _ hring =>
    refine ⟨fun hoff => ?_, fun hne => absurd rfl hne⟩
    cases hring with
    | held => exact ⟨fun _ => rfl, rfl⟩
    | advanced _ hon => simp [hon] at hoff
  | init enh store _ => exact absurd rfl (hinit _ enh store)
  | loadState => exact absurd rfl (hload _)
  | stereo | setRate | recalcAll =>
    exact ⟨fun _ => ⟨fun _ => rfl, rfl⟩, fun _ => (if_neg (by rintro ⟨_, h⟩; cases h)).symm⟩

/-- Settles O45: only the effect of TICK names the totals and the returned pairs. -/
theorem onlyTickReachesTheTotals : Obligations.OnlyTickReachesTheTotals := by
  unfold Obligations.OnlyTickReachesTheTotals
  intro i s t h htick
  cases exec_effect h with
  | tick => exact absurd rfl htick
  | register | stereo | init | setRate | recalcAll | loadState => exact ⟨rfl, rfl, rfl⟩

/-! ## The LFSR's top bit -/

/-- A step ends with a shift to the right, so bit 16 is clear after it (R142). -/
theorem lfsrStep_top (feedback : Bool) (x : BitVec 17) : (lfsrStep feedback x).getLsbD 16 = false := by
  simp [lfsrStep]

theorem lfsrStep_iterate_top {x : BitVec 17} (feedback : Bool) (hx : x.getLsbD 16 = false) :
    ∀ n, ((lfsrStep feedback)^[n] x).getLsbD 16 = false
  | 0 => hx
  | n + 1 => by rw [Function.iterate_succ_apply']; exact lfsrStep_top _ _

/-- Settles O54: the register is stepped by a TICK, set to 1 by INIT and PER_LATCH for channel 3, and else kept. -/
theorem lfsrTopBitStaysClear : Obligations.LfsrTopBitStaysClear := by
  unfold Obligations.LfsrTopBitStaysClear
  intro i s t hload hs h
  cases exec_effect h with
  | @register _ _ _ _ _ lf _ _ _ hlfsr =>
    show lf.getLsbD 16 = false
    rw [hlfsr]
    split
    · decide
    · exact hs
  | tick => exact lfsrStep_iterate_top _ hs _
  | init =>
    show (1 : BitVec 17).getLsbD 16 = false
    decide
  | loadState => exact absurd rfl (hload _)
  | stereo | setRate | recalcAll => exact hs

/-! ## The scaled volumes -/

/-- A re-derivation makes the scaled volume that of the channel's volume (R121). -/
theorem Rederived.scaled {P : Params} {s : State} {c : Channel} {a b : ChannelState} (h : Rederived P s c a b) :
    b.volumeScaled = P.attenTable b.volume * 2 ^ 4 := by
  rw [h.volumeScaled, h.volume]

/-- INIT's channels are scaled: the table's entry 0 is 0 (R120, R220). -/
theorem initialState_scaled (P : Params) (rate : Nat) (enh : Bool) (store : List Waveform) (s : State) :
    Scaled P (initialState P rate enh store s) := by
  intro c
  rw [initialState_ch]; rfl

theorem attenTable_scaled_le (P : Params) (v : BitVec 4) : P.attenTable v * 2 ^ 4 ≤ 0x1000 := by
  have := attenTable_le P v
  omega

theorem exec_keeps_scaled {i : Instr} {s t : State} (hload : ∀ r, i ≠ .loadState r) (hs : Scaled Config.params s)
    (h : exec i s = .next t) : Scaled Config.params t := by
  cases exec_effect h with
  | @register _ c a b _ _ _ hR =>
    intro d
    show ((s.chan.set c b).get d).volumeScaled = Config.params.attenTable ((s.chan.set c b).get d).volume * 2 ^ 4
    rw [Quad.get_set]
    split
    · exact hR.scaled
    · exact hs d
  | stereo => exact hs
  | @tick q _ _ _ _ moved =>
    intro c
    show (q.get c).volumeScaled = Config.params.attenTable (q.get c).volume * 2 ^ 4
    obtain ⟨n, hn, -⟩ := moved c
    rw [hn]; exact hs c
  | init => exact initialState_scaled _ _ _ _ _
  | setRate _ hR => exact fun c => (hR c).scaled
  | recalcAll hR => exact fun c => (hR c).scaled
  | loadState => exact absurd rfl (hload _)

/-- Settles O52: what changes a volume re-derives its channel, and a re-derivation scales it whatever it held. -/
theorem scaledVolumeFollowsTheVolume : Obligations.ScaledVolumeFollowsTheVolume := by
  unfold Obligations.ScaledVolumeFollowsTheVolume
  refine ⟨fun _ _ _ => exec_keeps_scaled, ?_, ?_⟩
  · rintro i s t (rfl | ⟨rate, enh, store, rfl⟩) h
    · cases exec_effect h with
      | register target => cases target
      | recalcAll hR => exact fun c => (hR c).scaled
    · cases exec_effect h with
      | register target => cases target
      | init => exact initialState_scaled _ _ _ _ _
  · intro s hs c
    rw [hs c]; exact attenTable_scaled_le _ _

/-! ## The record LOAD_STATE takes (R129) -/

theorem inRange_iff {n : Int} {bound : Nat} : inRange n bound = true ↔ 0 ≤ n ∧ n < bound := by
  simp [inRange]

/-- A channel of a record fits exactly if both checks of LOAD_STATE pass it: its widths, and its reference. -/
theorem channelFits_iff {store : List Waveform} {a : SavedChannel} :
    ChannelFits store a ↔ a.wf = true ∧ refInStore store a.waveformRef = true := by
  obtain ⟨volume, period, ref, position, increment, volumeScaled⟩ := a
  cases ref <;> simp [ChannelFits, SavedChannel.wf, refInStore, inRange_iff] <;> omega

/-- LOAD_STATE's check is the record's fitting the machine. -/
theorem acceptsRecord_iff {P : Params} {store : List Waveform} {r : SavedState} :
    acceptsRecord P store r = true ↔ RecordFits P store r := by
  simp only [acceptsRecord, SavedState.wf, RecordFits, forall_channel, Quad.get, channelFits_iff, Bool.and_eq_true,
    decide_eq_true_eq, inRange_iff, Nat.cast_pow, Nat.cast_ofNat, show (2 : Int) ^ 8 = 256 from rfl]
  tauto

theorem loadedState_ch (r : SavedState) (s : State) (c : Channel) :
    (loadedState r s).ch c = loadedChannel (r.chan.get c) := by
  match c with
  | 0 => rfl
  | 1 => rfl
  | 2 => rfl
  | 3 => rfl

/-! ## The machine's invariant, by its parts -/

/-- The invariant's part about one channel (R26, R27, R29, R129). -/
structure ChannelInv (store : List Waveform) (a : ChannelState) : Prop where
  position : a.position < 2 ^ 31
  scaled : a.volumeScaled ≤ 0x1000
  inStore : ∀ k, a.waveformRef = some k → k < store.length

/-- The invariant's part about the echo RAM and its cursor (R32, R55). -/
structure RingInv (P : Params) (m : Memory) (cursor : Nat) : Prop where
  form : m.wf = true
  within : m.within P.echoLen = true
  cursor : cursor < P.echoLen

/-- The invariant's part about the clock increment (R33). -/
def ClockInv (P : Params) (rate clock : Nat) : Prop := 0 < rate ∧ clock = P.clockIncrementAt rate

/-- The invariant is its parts, each about fields of its own. -/
theorem stateInv_iff {P : Params} {s : State} : StateInv P s ↔ RingInv P s.echo s.writeCursor ∧
    (∀ c, ChannelInv s.waveStore (s.ch c)) ∧ s.fault = none ∧
    (s.initialised = true → ClockInv P s.outputSampleRate s.clockIncrement) := by
  constructor
  · intro h
    exact ⟨⟨h.echoForm, h.echoWithin, h.cursor⟩, fun c => ⟨h.position c, h.scaled c, h.inStore c⟩, h.noFault, h.clock⟩
  · rintro ⟨hring, hchan, hfault, hclock⟩
    exact ⟨hring.form, hring.within, hring.cursor, fun c => (hchan c).position, fun c => (hchan c).scaled,
      fun c => (hchan c).inStore, hfault, hclock⟩

theorem channelInv_reset (store : List Waveform) : ChannelInv store ChannelState.reset where
  position := by decide
  scaled := by decide
  inStore := by intro k h; cases h

theorem ringInv_empty (P : Params) : RingInv P [] 0 where
  form := rfl
  within := rfl
  cursor := Nat.two_pow_pos _

/-- A re-derivation gives a channel that meets the invariant whatever scaled volume it held: the scaled volume is
computed anew, a picked waveform is in the store, and with it the position is 0 (R121 to R123). -/
theorem Rederived.channelInv {P : Params} {s : State} {c : Channel} {a b : ChannelState} (h : Rederived P s c a b)
    (hpos : a.position < 2 ^ 31) (href : ∀ k, a.waveformRef = some k → k < s.waveStore.length) :
    ChannelInv s.waveStore b := by
  have hscaled : b.volumeScaled ≤ 0x1000 := h.scaled ▸ attenTable_scaled_le P b.volume
  by_cases hp : a.period = 0
  · obtain ⟨eref, epos, -⟩ := h.inert hp
    exact ⟨epos ▸ hpos, hscaled, eref ▸ href⟩
  · refine ⟨?_, hscaled, fun k hk => ?_⟩
    · rw [h.position hp]; split <;> omega
    · obtain h0 | ⟨w, hw, -⟩ := h.derivable
      · exact absurd h0 hp
      · obtain rfl : waveformIndex P c a = k := Option.some.inj ((h.waveform hp).symm.trans hk)
        exact (List.getElem?_eq_some_iff.1 hw).1

/-- A channel of a record that fits meets the invariant once loaded (R129). -/
theorem ChannelFits.channelInv {store : List Waveform} {a : SavedChannel} (h : ChannelFits store a) :
    ChannelInv store (loadedChannel a) := by
  obtain ⟨-, -, hpos, -, hscaled, href⟩ := h
  refine ⟨?_, ?_, fun k hk => ?_⟩
  · show a.position.toNat < 2 ^ 31
    omega
  · show a.volumeScaled.toNat ≤ 0x1000
    omega
  · obtain ⟨n, hn, rfl⟩ := Option.map_eq_some_iff.1 hk
    have := href n hn
    omega

/-- A TICK writes inside the ring and keeps its canonical form (R55). -/
theorem RingAfterTick.ringInv {P : Params} {enhanced : Bool} {m m' : Memory} {k k' : Nat}
    (h : RingAfterTick P enhanced m k m' k') (hm : RingInv P m k) : RingInv P m' k' := by
  cases h with
  | held => exact hm
  | advanced v _ hinside hcursor =>
    exact ⟨Memory.wf_write hm.form _ v, Memory.within_write hinside hm.within, hcursor⟩

theorem RecordFits.ringInv {P : Params} {store : List Waveform} {r : SavedState} (h : RecordFits P store r) :
    RingInv P (Memory.ofList r.echo) r.writeCursor.toNat := by
  obtain ⟨-, -, -, -, hlen, hnonneg, hcursor⟩ := h
  exact ⟨Memory.wf_ofList _, Memory.within_ofList hlen, by omega⟩

/-- Every operation that answers keeps the invariant. -/
theorem exec_keeps_stateInv {i : Instr} {s t : State} (hs : StateInv Config.params s) (h : exec i s = .next t) :
    StateInv Config.params t := by
  obtain ⟨hring, hchan, hfault, hclock⟩ := stateInv_iff.1 hs
  rw [stateInv_iff]
  cases exec_effect h with
  | @register _ c a b _ _ target hR =>
    refine ⟨hring, fun d => ?_, hfault, hclock⟩
    obtain ⟨hpos, href⟩ := registerTarget_keeps target
    show ChannelInv s.waveStore ((s.chan.set c b).get d)
    rw [Quad.get_set]
    split
    · refine hR.channelInv (hpos ▸ (hchan c).position) fun k hk => (hchan c).inStore k ?_
      obtain hnone | hsame := href
      · rw [hnone] at hk; cases hk
      · rw [← hsame]; exact hk
    · exact hchan d
  | stereo => exact ⟨hring, hchan, hfault, hclock⟩
  | @tick q _ _ _ _ moved ring =>
    refine ⟨ring.ringInv hring, fun c => ?_, hfault, hclock⟩
    obtain ⟨n, hn, hlt⟩ := moved c
    show ChannelInv s.waveStore (q.get c)
    rw [hn]
    exact ⟨hlt.elim (fun e => e ▸ (hchan c).position) id, (hchan c).scaled, (hchan c).inStore⟩
  | init enh store positive =>
    refine ⟨ringInv_empty _, fun c => ?_, rfl, fun _ => ⟨Nat.pos_of_ne_zero positive, rfl⟩⟩
    rw [initialState_ch]
    exact channelInv_reset store
  | setRate positive hR =>
    exact ⟨hring, fun c => (hR c).channelInv (hchan c).position (hchan c).inStore, hfault,
      fun _ => ⟨Nat.pos_of_ne_zero positive, rfl⟩⟩
  | recalcAll hR =>
    exact ⟨hring, fun c => (hR c).channelInv (hchan c).position (hchan c).inStore, hfault, hclock⟩
  | loadState accepted =>
    have hfits := acceptsRecord_iff.1 accepted
    refine ⟨hfits.ringInv, fun c => ?_, hfault, hclock⟩
    rw [loadedState_ch]
    exact (hfits.1 c).channelInv

/-- Settles O51: an idle step holds the state; any other runs one operation from a state that differs in its pending
list alone, which the invariant does not read. -/
theorem everyStepKeepsTheInvariant : Obligations.EveryStepKeepsTheInvariant := by
  unfold Obligations.EveryStepKeepsTheInvariant
  intro s t hs h
  unfold step at h
  split at h
  · obtain ⟨-, h⟩ := unlessFaulted_eq_next h
    cases h
    exact hs
  · rename_i rest _
    have hrest : StateInv Config.params (s.setPending rest) := stateInv_iff.2 ((stateInv_iff (s := s)).1 hs)
    exact exec_keeps_stateInv hrest h

end Sys2Proof.Machine
end

section
/-! PROOF. The decoder gives back an encoded operation (R71, R73, R75), and a step runs it (R60, R200). -/

namespace Sys2Proof

/-! ## The form a byte on REG decodes to, by its marker bits (R75) -/

theorem decodeReg_volLatch {latch b : Byte} (h : b &&& 0x90 = 0x90) :
    decodeReg latch b = .volLatch (channelField b) (dataField b) := if_pos h

theorem decodeReg_perLatch {latch b : Byte} (h : b &&& 0x90 = 0x80) :
    decodeReg latch b = .perLatch (channelField b) (dataField b) := by
  rw [decodeReg, if_neg (by rw [h]; decide), if_pos h]

/-- A byte with bit 7 clear has neither latch marker: both markers have it set. -/
theorem decodeReg_continuation {latch b : Byte} (h : b &&& 0x80 = 0) :
    decodeReg latch b =
      if latchIsVolume latch then .volCont (volContIgnored b) (dataField b)
      else .perCont (perContIgnored b) (perContField b) := by
  have hbit : (b &&& 0x90) &&& 0x80 = 0 := by rw [BitVec.and_assoc]; exact h
  have hvol : b &&& 0x90 ≠ 0x90 := fun e => by rw [e] at hbit; exact absurd hbit (by decide)
  have hper : b &&& 0x90 ≠ 0x80 := fun e => by rw [e] at hbit; exact absurd hbit (by decide)
  rw [decodeReg, if_neg hvol, if_neg hper]

/-! ## The marker bits and the fields of each byte format (R71, R73) -/

theorem volLatchByte_fields (c : Channel) (d : BitVec 4) : volLatchByte c d &&& 0x90 = 0x90 ∧
    channelField (volLatchByte c d) = c ∧ dataField (volLatchByte c d) = d := by
  revert c d; decide

theorem perLatchByte_fields (c : Channel) (p : BitVec 4) : perLatchByte c p &&& 0x90 = 0x80 ∧
    channelField (perLatchByte c p) = c ∧ dataField (perLatchByte c p) = p := by
  revert c p; decide

theorem volContByte_fields (x : BitVec 3) (d : BitVec 4) : volContByte x d &&& 0x80 = 0 ∧
    volContIgnored (volContByte x d) = x ∧ dataField (volContByte x d) = d := by
  revert x d; decide

theorem perContByte_fields (x : BitVec 1) (p : BitVec 6) : perContByte x p &&& 0x80 = 0 ∧
    perContIgnored (perContByte x p) = x ∧ perContField (perContByte x p) = p := by
  revert x p; decide

theorem decodeStereo_stereoByte (r l : BitVec 4) : decodeStereo (stereoByte r l) = .writeStereo r l := by
  revert r l; decide

/-! ## Encoding, then decoding -/

/-- A latch form is found by its own marker, a continuation form by `last_latch`; each keeps its fields. -/
theorem decode_encode {latch : Byte} {i : Instr} (hfits : i.fits latch = true) : decode latch (encode i) = i := by
  cases i with
  | volLatch c d =>
    obtain ⟨hmark, hc, hd⟩ := volLatchByte_fields c d
    rw [encode, decode, decodeReg_volLatch hmark, hc, hd]
  | perLatch c p =>
    obtain ⟨hmark, hc, hp⟩ := perLatchByte_fields c p
    rw [encode, decode, decodeReg_perLatch hmark, hc, hp]
  | volCont x d =>
    obtain ⟨hbit, hx, hd⟩ := volContByte_fields x d
    have hvol : latchIsVolume latch = true := hfits
    rw [encode, decode, decodeReg_continuation hbit, if_pos hvol, hx, hd]
  | perCont x p =>
    obtain ⟨hbit, hx, hp⟩ := perContByte_fields x p
    have hper : ¬ latchIsVolume latch = true := by simpa [Instr.fits] using hfits
    rw [encode, decode, decodeReg_continuation hbit, if_neg hper, hx, hp]
  | writeStereo r l => exact decodeStereo_stereoByte r l
  | tick | init | setRate | recalcAll | loadState => rfl

end Sys2Proof

namespace Sys2Proof.Machine

/-- With an operation pending, a step runs the oldest as it decodes now (R60, R200). -/
theorem step_of_pending {s : State} {r : Request} {rest : List Request} (h : s.pending = r :: rest) :
    step s = exec (decode s.lastLatch r) (s.setPending rest) := by
  simp only [step, h]

/-- Settles O6: the step decodes the oldest request, which gives back the operation it encodes. -/
theorem stepRunsTheDecodedInstruction : Obligations.StepRunsTheDecodedInstruction := by
  unfold Obligations.StepRunsTheDecodedInstruction
  intro s i rest hpending hfits
  rw [step_of_pending hpending, decode_encode hfits, State.setPending]

end Sys2Proof.Machine
end

section
/-! PROOF. The byte formats both ways (R71, R73, R75): what is encoded decodes back, a request is the encoding of what
it decodes to; the ignored bits reach the trace alone (R77, R101), and two bytes set a whole period (R78, R80). -/

namespace Sys2Proof

/-! ## Each byte is the encoding of its own fields -/

/-- The three markers of a byte on REG: bits 7 and 4 both set, bit 7 alone of the two, bit 7 clear (R75). -/
theorem marker_cases (b : Byte) : b &&& 0x90 = 0x90 ∨ b &&& 0x90 = 0x80 ∨ b &&& 0x80 = 0 := by
  revert b; decide

theorem volLatchByte_of_fields {b : Byte} (h : b &&& 0x90 = 0x90) :
    volLatchByte (channelField b) (dataField b) = b := by
  revert b; decide

theorem perLatchByte_of_fields {b : Byte} (h : b &&& 0x90 = 0x80) :
    perLatchByte (channelField b) (dataField b) = b := by
  revert b; decide

theorem volContByte_of_fields {b : Byte} (h : b &&& 0x80 = 0) :
    volContByte (volContIgnored b) (dataField b) = b := by
  revert b; decide

theorem perContByte_of_fields {b : Byte} (h : b &&& 0x80 = 0) :
    perContByte (perContIgnored b) (perContField b) = b := by
  revert b; decide

theorem encode_decodeStereo (b : Byte) : encode (decodeStereo b) = .writeStereo b := by
  revert b; decide

/-! ## The continuation form `last_latch` selects (R75) -/

theorem decodeReg_volCont {latch b : Byte} (h : b &&& 0x80 = 0) (hvol : latchIsVolume latch = true) :
    decodeReg latch b = .volCont (volContIgnored b) (dataField b) := by
  rw [decodeReg_continuation h, if_pos hvol]

theorem decodeReg_perCont {latch b : Byte} (h : b &&& 0x80 = 0) (hper : latchIsVolume latch = false) :
    decodeReg latch b = .perCont (perContIgnored b) (perContField b) := by
  rw [decodeReg_continuation h, if_neg (by rw [hper]; decide)]

theorem latchIsVolume_iff {latch : Byte} : latchIsVolume latch = true ↔ latch &&& 0x10 ≠ 0 := bne_iff_ne

theorem latchIsVolume_eq_false_iff {latch : Byte} : latchIsVolume latch = false ↔ latch &&& 0x10 = 0 :=
  bne_eq_false_iff_eq

/-! ## Decoding, then encoding -/

/-- By the byte's marker, and for a continuation byte by the register `last_latch` names. -/
theorem encode_decodeReg (latch b : Byte) :
    encode (decodeReg latch b) = .writeReg b ∧ (decodeReg latch b).fits latch = true := by
  obtain hmark | hmark | hbit := marker_cases b
  · rw [decodeReg_volLatch hmark, encode, volLatchByte_of_fields hmark]
    exact ⟨rfl, rfl⟩
  · rw [decodeReg_perLatch hmark, encode, perLatchByte_of_fields hmark]
    exact ⟨rfl, rfl⟩
  · cases hlatch : latchIsVolume latch with
    | true =>
      rw [decodeReg_volCont hbit hlatch, encode, volContByte_of_fields hbit]
      exact ⟨rfl, hlatch⟩
    | false =>
      rw [decodeReg_perCont hbit hlatch, encode, perContByte_of_fields hbit, Instr.fits, hlatch]
      exact ⟨rfl, rfl⟩

/-- Settles O1: each form's marker and fields are read back from its own byte. -/
theorem encodeThenDecode : Obligations.EncodeThenDecode := by
  unfold Obligations.EncodeThenDecode
  exact fun _ _ => decode_encode

/-- Settles O2: a byte on REG by its marker, a byte on STEREO by its two nibbles; a host operation stands for itself. -/
theorem decodeThenEncode : Obligations.DecodeThenEncode := by
  unfold Obligations.DecodeThenEncode
  intro latch r
  cases r with
  | writeReg b => exact encode_decodeReg latch b
  | writeStereo b => exact ⟨encode_decodeStereo b, rfl⟩
  | tick | init | setRate | recalcAll | loadState => exact ⟨rfl, rfl⟩

/-- Settles O3: five closed words, each evaluated. -/
theorem formatWordsDecode : Obligations.FormatWordsDecode := by
  unfold Obligations.FormatWordsDecode
  decide

/-- Settles O4: the form of each marker, the continuation's by bit 4 of `last_latch`. -/
theorem regByteIsOneOfFourForms : Obligations.RegByteIsOneOfFourForms := by
  unfold Obligations.RegByteIsOneOfFourForms
  intro latch b
  refine ⟨fun hmark => ?_, fun hmark => ?_, fun hbit hvol => ?_, fun hbit hper => ?_⟩
  · exact ⟨_, _, decodeReg_volLatch hmark⟩
  · exact ⟨_, _, decodeReg_perLatch hmark⟩
  · exact ⟨_, _, decodeReg_volCont hbit (latchIsVolume_iff.2 hvol)⟩
  · exact ⟨_, _, decodeReg_perCont hbit (latchIsVolume_eq_false_iff.2 hper)⟩

end Sys2Proof

namespace Sys2Proof.Machine

/-! ## The raw byte reaches the trace alone (R77, R101) -/

/-- `Rederived` determines the channel it leaves: every field is given by what the channel held. -/
theorem Rederived.unique {P : Params} {s : State} {c : Channel} {a b b' : ChannelState} (h : Rederived P s c a b)
    (h' : Rederived P s c a b') : b = b' := by
  have hvolume : b.volume = b'.volume := h.volume.trans h'.volume.symm
  have hperiod : b.period = b'.period := h.period.trans h'.period.symm
  have hscaled : b.volumeScaled = b'.volumeScaled := h.volumeScaled.trans h'.volumeScaled.symm
  have hderived : b.waveformRef = b'.waveformRef ∧ b.position = b'.position ∧ b.increment = b'.increment := by
    by_cases hp : a.period = 0
    · obtain ⟨href, hpos, hinc⟩ := h.inert hp
      obtain ⟨href', hpos', hinc'⟩ := h'.inert hp
      exact ⟨href.trans href'.symm, hpos.trans hpos'.symm, hinc.trans hinc'.symm⟩
    · obtain ⟨w, hw, -⟩ := h.derivable.resolve_left hp
      exact ⟨(h.waveform hp).trans (h'.waveform hp).symm, (h.position hp).trans (h'.position hp).symm,
        (h.increment hp w hw).trans (h'.increment hp w hw).symm⟩
  obtain ⟨href, hpos, hinc⟩ := hderived
  cases b; cases b'
  rw [ChannelState.mk.injEq]
  exact ⟨hvolume, hperiod, href, hpos, hinc, hscaled⟩

/-- After a write prologue a re-derivation has the same result whatever raw byte the prologue traced: it reads the
channel, the store and the clock increment, none of which the prologue touches. -/
theorem rederive_prologue_byte {P : Params} {c : Channel} {a : ChannelState} {port : Port} {b : Byte} {s t : State}
    (h : rederive P c ((prologue port b s).setCh c a) = .next t) (b' : Byte) :
    rederive P c ((prologue port b' s).setCh c a) =
      .next { t with events := s.events ++ [.flush, .trace port b'] } := by
  obtain ⟨ch, rfl, hch⟩ := rederive_after h
  have hch' : Rederived P (prologue port b' s) c a ch := hch.congr rfl rfl
  obtain ⟨ch', ht', hunique⟩ := rederive_after_completes hch'.derivable
  rw [ht', hunique.unique hch']
  rfl

/-- Settles O5: neither continuation form uses its ignored bits after the prologue. -/
theorem ignoredBitsHaveNoEffect : Obligations.IgnoredBitsHaveNoEffect := by
  unfold Obligations.IgnoredBitsHaveNoEffect
  refine ⟨fun x x' d s t h => ?_, fun x x' p s t h => ?_⟩
  · obtain ⟨hready, h⟩ := whenReady_eq_next h
    rw [volCont_eq] at h
    rw [exec, execVolCont, whenReady_of_ready hready, volCont_eq]
    exact rederive_prologue_byte h _
  · obtain ⟨hready, h⟩ := whenReady_eq_next h
    rw [perCont_eq] at h
    rw [exec, execPerCont, whenReady_of_ready hready, perCont_eq]
    exact rederive_prologue_byte h _

/-! ## Two bytes set the whole period (R78, R80) -/

/-- A register form that answers leaves its channel the period it wrote: the re-derivation keeps it. -/
theorem registerForm_period {i : Instr} {s t : State} {c : Channel} {a : ChannelState}
    (htarget : registerTarget s i = some (c, a)) (h : exec i s = .next t) : (t.ch c).period = a.period := by
  obtain ⟨b, latch, lf, hb, rfl, -⟩ := registerForm_cases htarget h
  rw [State.ch, Quad.get_set_self, hb.period]

/-- A period latch puts its own byte in `last_latch` (R104). -/
theorem exec_perLatch_lastLatch {c : Channel} {p : BitVec 4} {s t : State} (h : exec (.perLatch c p) s = .next t) :
    t.lastLatch = perLatchByte c p := by
  obtain ⟨-, h⟩ := whenReady_eq_next h
  rw [perLatch_eq] at h
  obtain ⟨b, rfl, -⟩ := rederive_after h
  rfl

theorem latchedChannel_perLatchByte (c : Channel) (p : BitVec 4) : latchedChannel (perLatchByte c p) = c := by
  obtain ⟨-, hchannel, -⟩ := perLatchByte_fields c p
  exact hchannel

/-- Settles O15: the latch writes bits 3:0 and latches the channel, so the continuation writes bits 9:4 of the same
channel and keeps those. -/
theorem twoBytesSetTheWholePeriod : Obligations.TwoBytesSetTheWholePeriod := by
  unfold Obligations.TwoBytesSetTheWholePeriod
  intro c lo x hi s t u hlatch hcont
  have hchannel : latchedChannel t.lastLatch = c := by
    rw [exec_perLatch_lastLatch hlatch, latchedChannel_perLatchByte]
  have hlow : (t.ch c).period = (s.ch c).period.extractLsb' 4 6 ++ lo := registerForm_period rfl hlatch
  have hhigh : (u.ch c).period = hi ++ (t.ch c).period.extractLsb' 0 4 :=
    registerForm_period (a := withHighPeriod hi (t.ch c)) (by rw [registerTarget, hchannel]) hcont
  rw [hhigh, hlow, BitVec.extractLsb'_append_eq_right]

end Sys2Proof.Machine
end

section
/-! PROOF. The write ports (40_protocol_decoder.md): the prologue of every write, what each of the five port operations
leaves, and what the four register forms leave unchanged. -/

namespace Sys2Proof.Machine

/-! ## The prologue (R101) -/

theorem exec_answers_events {i : Instr} {s t : State} (h : exec i s = .next t) :
    t.events = s.events ++ prologueEvents (encode i) := by
  cases exec_effect h with
  | register | stereo => rfl
  | tick | init | setRate | recalcAll | loadState => exact (List.append_nil _).symm

theorem LeftBy.events {s t : State} {r : FaultReason} (h : LeftBy s t r) : t.events = s.events := by
  obtain ⟨q, rfl⟩ := h
  rfl

/-- A register form that faults does so in its re-derivation, after its prologue. -/
theorem registerForm_raised_events {i : Instr} {s t : State} {c : Channel} {a : ChannelState} {r : FaultReason}
    (htarget : registerTarget s i = some (c, a)) (h : exec i s = .fault (.raised r t)) :
    t.events = s.events ++ prologueEvents (encode i) := by
  cases i with
  | volLatch c d =>
    obtain ⟨-, h⟩ := whenReady_eq_raised h
    rw [volLatch_eq] at h
    obtain h | ⟨u, -, h⟩ := andThen_eq_fault h
    · exact (rederive_raised h).1.events
    · cases h
  | perLatch c p =>
    obtain ⟨-, h⟩ := whenReady_eq_raised h
    rw [perLatch_eq, reseed_eq] at h
    exact (rederive_raised h).1.events
  | volCont x d =>
    obtain ⟨-, h⟩ := whenReady_eq_raised h
    rw [volCont_eq] at h
    exact (rederive_raised h).1.events
  | perCont x p =>
    obtain ⟨-, h⟩ := whenReady_eq_raised h
    rw [perCont_eq] at h
    exact (rederive_raised h).1.events
  | _ => cases htarget

theorem setRate_raised_events {P : Params} {rate : Nat} {s t : State} {r : FaultReason}
    (h : setRate P rate s = .fault (.raised r t)) : t.events = s.events := by
  unfold setRate at h
  split at h
  · obtain ⟨-, rfl⟩ := raise_eq_raised h
    rfl
  · exact (recalcAll_raised h).1.events

theorem initialise_raised_events {P : Params} {rate : Nat} {enh : Bool} {store : List Waveform} {s t : State}
    {r : FaultReason} (h : initialise P rate enh store s = .fault (.raised r t)) : t.events = s.events := by
  unfold initialise at h
  split at h
  · obtain ⟨-, rfl⟩ := raise_eq_raised h
    rfl
  · exact (recalcAll_raised h).1.events

theorem loadState_raised_events {P : Params} {saved : SavedState} {s t : State} {r : FaultReason}
    (h : loadState P saved s = .fault (.raised r t)) : t.events = s.events := by
  unfold loadState at h
  split at h
  · cases h
  · obtain ⟨-, rfl⟩ := raise_eq_raised h
    rfl

theorem exec_raised_events {i : Instr} {s t : State} {r : FaultReason} (h : exec i s = .fault (.raised r t)) :
    t.events = s.events ++ prologueEvents (encode i) := by
  cases i with
  | volLatch | perLatch | volCont | perCont => exact registerForm_raised_events rfl h
  | writeStereo r l =>
    obtain ⟨-, h⟩ := whenReady_eq_raised h
    cases h
  | tick =>
    obtain ⟨-, h⟩ := whenReady_eq_raised h
    exact (tick_raised h).1.events.trans (List.append_nil _).symm
  | init rate enh store =>
    obtain ⟨-, h⟩ := unlessFaulted_eq_raised h
    exact (initialise_raised_events h).trans (List.append_nil _).symm
  | setRate rate =>
    obtain ⟨-, h⟩ := whenReady_eq_raised h
    exact (setRate_raised_events h).trans (List.append_nil _).symm
  | recalcAll =>
    obtain ⟨-, h⟩ := whenReady_eq_raised h
    exact (recalcAll_raised h).1.events.trans (List.append_nil _).symm
  | loadState saved =>
    obtain ⟨-, h⟩ := whenReady_eq_raised h
    exact (loadState_raised_events h).trans (List.append_nil _).symm

/-- Settles O8: an operation that answers has had its effect, which names the prologue's events; one that faults does
so after its prologue, and a fault leaves the events alone. -/
theorem writePrologueEvents : Obligations.WritePrologueEvents := by
  unfold Obligations.WritePrologueEvents
  exact fun i s t => ⟨exec_answers_events, fun _ => exec_raised_events⟩

/-! ## The five port operations (R103 to R106, R110) -/

/-- Settles O9: the volume write is the re-derivation of its channel after the prologue, and `last_latch` is set once
that has answered. -/
theorem volLatchResult : Obligations.VolLatchResult := by
  unfold Obligations.VolLatchResult
  intro c d s hready hderivable
  obtain ⟨b, hb, hR⟩ := rederive_after_completes (u := prologue .reg (volLatchByte c d) s) (hderivable.congr rfl rfl)
  refine ⟨b, hR.congr rfl rfl, ?_⟩
  rw [exec, execVolLatch, whenReady_of_ready hready, volLatch_eq, hb]
  rfl

/-- Settles O10: the reseed and `last_latch` come before the re-derivation, which keeps both. -/
theorem perLatchResult : Obligations.PerLatchResult := by
  unfold Obligations.PerLatchResult
  intro c p s hready hderivable
  obtain ⟨b, hb, hR⟩ := rederive_after_completes
    (u := { prologue .reg (perLatchByte c p) s with
      lfsr := if c = 3 then 1 else s.lfsr
      lastLatch := perLatchByte c p }) (hderivable.congr rfl rfl)
  refine ⟨b, hR.congr rfl rfl, ?_⟩
  rw [exec, execPerLatch, whenReady_of_ready hready, perLatch_eq, reseed_eq]
  exact hb

/-- Settles O11: as for VOL_LATCH, in the latched channel and without a new `last_latch`. -/
theorem volContResult : Obligations.VolContResult := by
  unfold Obligations.VolContResult
  intro x d s c hready hc hderivable
  obtain ⟨b, hb, hR⟩ := rederive_after_completes (u := prologue .reg (volContByte x d) s) (hderivable.congr rfl rfl)
  refine ⟨b, hR.congr rfl rfl, ?_⟩
  rw [exec, execVolCont, whenReady_of_ready hready, volCont_eq, latchedChannel_of_val hc]
  exact hb

/-- Settles O12: as for PER_LATCH, in the latched channel, with neither a reseed nor a new `last_latch`. -/
theorem perContResult : Obligations.PerContResult := by
  unfold Obligations.PerContResult
  intro x p s c hready hc hderivable
  obtain ⟨b, hb, hR⟩ := rederive_after_completes (u := prologue .reg (perContByte x p) s) (hderivable.congr rfl rfl)
  refine ⟨b, hR.congr rfl rfl, ?_⟩
  rw [exec, execPerCont, whenReady_of_ready hready, perCont_eq, latchedChannel_of_val hc]
  exact hb

theorem stereoByte_eq_append (r l : BitVec 4) : stereoByte r l = r ++ l := by
  revert r l; decide

/-- Settles O13: the inverse of the byte is the inverse of each nibble. -/
theorem writeStereoResult : Obligations.WriteStereoResult := by
  unfold Obligations.WriteStereoResult
  intro r l s hready
  rw [exec, execWriteStereo, whenReady_of_ready hready, stereoByte_eq_append, ← BitVec.not_append]
  rfl

/-! ## The written channel after a volume write (R107, R108, R122) -/

/-- A re-derivation gives a channel without a waveform the one its period picks, at position 0; without a period it
stays without one (R122). -/
theorem Rederived.restarts {P : Params} {s : State} {c : Channel} {a b : ChannelState} (h : Rederived P s c a b)
    (hnone : a.waveformRef = none) :
    if a.period = 0 then b.waveformRef = none ∧ b.position = a.position
    else b.waveformRef = some (pickIndex P c a.period) ∧ b.position = 0 := by
  split
  case isTrue hp =>
    obtain ⟨href, hpos, -⟩ := h.inert hp
    exact ⟨href.trans hnone, hpos⟩
  case isFalse hp =>
    have hpick : waveformIndex P c a = pickIndex P c a.period := by simp only [waveformIndex, hnone, pickIndex]
    exact ⟨hpick ▸ h.waveform hp, (h.position hp).trans (if_pos hnone)⟩

/-- A re-derivation keeps an assigned waveform and its position (R122). -/
theorem Rederived.keeps_assigned {P : Params} {s : State} {c : Channel} {a b : ChannelState} {k : Nat}
    (h : Rederived P s c a b) (hk : a.waveformRef = some k) :
    b.waveformRef = some k ∧ b.position = a.position := by
  by_cases hp : a.period = 0
  · obtain ⟨href, hpos, -⟩ := h.inert hp
    exact ⟨href.trans hk, hpos⟩
  · have hindex : waveformIndex P c a = k := by simp only [waveformIndex, hk]
    have hassigned : a.waveformRef ≠ none := by simp [hk]
    exact ⟨hindex ▸ h.waveform hp, (h.position hp).trans (if_neg hassigned)⟩

/-- A register form that answers has re-derived its channel from what it writes (R102 to R106). -/
theorem registerForm_rederives {i : Instr} {s t : State} {c : Channel} {a : ChannelState}
    (htarget : registerTarget s i = some (c, a)) (h : exec i s = .next t) :
    Rederived Config.params s c a (t.ch c) := by
  obtain ⟨b, latch, lf, hb, rfl, -⟩ := registerForm_cases htarget h
  rw [State.ch, Quad.get_set_self]
  exact hb

/-- Settles O14: the attack test clears the waveform or leaves it, and the re-derivation restarts a channel without a
waveform and keeps an assigned one. -/
theorem attackRestartsTheWaveform : Obligations.AttackRestartsTheWaveform := by
  unfold Obligations.AttackRestartsTheWaveform
  intro i s t c d hform h
  have htarget : registerTarget s i = some (c, withVolume d (s.ch c)) := by
    obtain rfl | ⟨⟨x, rfl⟩, rfl⟩ := hform <;> rfl
  have hR := registerForm_rederives htarget h
  exact ⟨hR.volume, fun hattack => hR.restarts (if_pos hattack),
    fun hquiet k hk => hR.keeps_assigned ((if_neg hquiet).trans hk)⟩

/-! ## The frame of the register forms (R102 to R108) -/

/-- Settles O17: beside the channel, `last_latch`, the LFSR and the events, a register form's effect names nothing. -/
theorem registerFormFrame : Obligations.RegisterFormFrame := by
  unfold Obligations.RegisterFormFrame
  intro i s t c a htarget h
  have hR := registerForm_rederives htarget h
  obtain ⟨b, latch, lf, -, rfl, hlatch, hlfsr, -⟩ := registerForm_cases htarget h
  exact ⟨fun e he => Quad.get_set_ne s.chan b he, rfl, fun _ => rfl, rfl, rfl, rfl, rfl, rfl, rfl, rfl, rfl, rfl, rfl,
    rfl, hR.volume, hR.period, hlatch, hlfsr⟩

end Sys2Proof.Machine
end

section
/-! PROOF. Parameter derivation (41_parameter_derivation.md): the attenuation table, RECALC_ALL and SET_RATE, where a
re-derivation faults, LOAD_STATE, and that a channel with a period has a waveform. -/

namespace Sys2Proof.Machine

/-! ## The attenuation table (R120) -/

/-- P2: each entry is at least the one before it. -/
theorem attenEntry_monotone (raw : Nat → Nat) : Monotone (attenEntry raw) :=
  monotone_nat_of_le_succ fun _ => le_max_left _ _

/-- A raw table that has P1 to P3 up to an entry is kept there as it is. -/
theorem attenEntry_eq_raw {raw : Nat → Nat} (hzero : raw 0 = 0) :
    ∀ n, (∀ k < n, raw k ≤ raw (k + 1)) → (∀ k, raw k ≤ 0x100) → attenEntry raw n = raw n
  | 0, _, _ => hzero.symm
  | n + 1, hmono, hle => by
    have ih : attenEntry raw n = raw n := attenEntry_eq_raw hzero n (fun k hk => hmono k (by omega)) hle
    rw [attenEntry, ih, min_eq_left (hle _), max_eq_right (hmono n n.lt_succ_self)]

/-- Settles O56: an entry is a maximum over the entries before it and one value cut to 0x100; on a table that has the
properties neither the cut nor the maximum changes anything. -/
theorem attenTableIsAnyLegalTable : Obligations.AttenTableIsAnyLegalTable := by
  unfold Obligations.AttenTableIsAnyLegalTable
  refine ⟨fun P => ⟨rfl, fun u v huv => attenEntry_monotone _ huv, attenTable_le P⟩, fun T P hzero hmono hle v => ?_⟩
  have hstep : ∀ k < v.toNat, T (BitVec.ofNat 4 k) ≤ T (BitVec.ofNat 4 (k + 1)) := fun k hk =>
    hmono _ _ (by simp only [BitVec.toNat_ofNat]; omega)
  have hentry := attenEntry_eq_raw (raw := fun n => T (BitVec.ofNat 4 n)) hzero v.toNat hstep fun _ => hle _
  rw [Params.attenTable, hentry, BitVec.ofNat_toNat, BitVec.setWidth_eq]

/-! ## RECALC_ALL and SET_RATE where they complete (R127, R128) -/

theorem exec_recalcAll_of_ready {s : State} (h : s.Ready) : exec .recalcAll s = recalcAll Config.params s :=
  whenReady_of_ready h

/-- SET_RATE of a positive rate is a RECALC_ALL after the rate and the clock increment are set (R128). -/
theorem exec_setRate_of_ready {rate : Nat} {s : State} (h : s.Ready) (hrate : rate ≠ 0) :
    exec (.setRate rate) s = recalcAll Config.params (s.setRate rate (Config.params.clockIncrementAt rate)) := by
  rw [exec, execSetRate, whenReady_of_ready h, setRate, if_neg hrate]

/-- Settles O18: RECALC_ALL completes where its channels are derivable, and changes the channels alone. -/
theorem recalcAllResult : Obligations.RecalcAllResult := by
  unfold Obligations.RecalcAllResult
  intro s hready hderivable
  obtain ⟨q, hq, hR⟩ := recalcAll_completes hderivable
  exact ⟨q, hR, (exec_recalcAll_of_ready hready).trans hq⟩

/-- Settles O20: a rate of 0 is tested first; else RECALC_ALL runs with the new clock increment, which is all that
its channels read of what SET_RATE has set. -/
theorem setRateResult : Obligations.SetRateResult := by
  unfold Obligations.SetRateResult
  refine fun rate s hready => ⟨?_, fun hrate hderivable => ?_⟩
  · rintro rfl
    exact whenReady_of_ready hready
  · obtain ⟨q, hq, hR⟩ := recalcAll_completes (s := s.setRate rate (Config.params.clockIncrementAt rate))
      fun c => (hderivable c).congr rfl rfl
    exact ⟨q, fun c => (hR c).congr rfl rfl, (exec_setRate_of_ready hready hrate).trans hq⟩

/-! ## A second RECALC_ALL (R127) -/

/-- An assigned waveform is the one recalc_increment works with (R122). -/
theorem waveformIndex_of_some {P : Params} {c : Channel} {a : ChannelState} {k : Nat} (h : a.waveformRef = some k) :
    waveformIndex P c a = k := by
  simp only [waveformIndex, h]

/-- Re-deriving a re-derived channel changes nothing: its waveform is now an assigned one, and the increment is
computed from the same waveform and the same period. -/
theorem Rederived.again {P : Params} {s : State} {c : Channel} {a b : ChannelState} (h : Rederived P s c a b) :
    Rederived P s c b b := by
  have href : b.period ≠ 0 → b.waveformRef = some (waveformIndex P c a) := fun hp => h.waveform (h.period ▸ hp)
  have hindex : b.period ≠ 0 → waveformIndex P c b = waveformIndex P c a := fun hp => waveformIndex_of_some (href hp)
  refine ⟨rfl, rfl, h.scaled, fun _ => ⟨rfl, rfl, rfl⟩, fun hp => ?waveform, ?derivable, fun hp => ?position,
    fun hp w hw => ?increment⟩
  case waveform => rw [hindex hp, href hp]
  case derivable =>
    by_cases hp : b.period = 0
    · exact .inl hp
    · obtain hzero | hrange := h.derivable
      · exact .inl (h.period.trans hzero)
      · exact .inr (by rw [hindex hp]; exact hrange)
  case position => rw [if_neg (by simp [href hp])]
  case increment =>
    rw [hindex hp] at hw
    split
    case isTrue => rfl
    case isFalse hcount => rw [h.increment (h.period ▸ hp) w hw, if_neg hcount, h.period]

/-- Settles O19: what the first pass leaves is re-derivable and re-derived to itself, and a re-derivation has one
result. -/
theorem recalcAllTwiceIsOnce : Obligations.RecalcAllTwiceIsOnce := by
  unfold Obligations.RecalcAllTwiceIsOnce
  intro s t h
  obtain ⟨hready, h⟩ := whenReady_eq_next h
  obtain ⟨q, rfl, hR⟩ := recalcAll_cases h
  have hagain : ∀ c, Rederived Config.params { s with chan := q } c (q.get c) (q.get c) :=
    fun c => (hR c).again.congr rfl rfl
  obtain ⟨q', hq', hR'⟩ := recalcAll_completes (s := { s with chan := q }) fun c => (hagain c).derivable
  obtain rfl : q' = q := Quad.ext_get fun c => (hR' c).unique (hagain c)
  exact (exec_recalcAll_of_ready (s := { s with chan := q' }) hready).trans hq'

/-! ## Where a re-derivation faults (R123, R203, R208) -/

/-- A channel raises the same in two states with one store and one clock increment. -/
theorem DerivationRaises.congr {P : Params} {s t : State} {c : Channel} {a : ChannelState} {r : FaultReason}
    (h : DerivationRaises P s c a r) (hst : t.waveStore = s.waveStore) (hck : t.clockIncrement = s.clockIncrement) :
    DerivationRaises P t c a r := by
  unfold DerivationRaises at h ⊢; rw [hst, hck]; exact h

/-- A channel is either derivable or raises one of the two reasons of R123. -/
theorem not_derivable_iff {P : Params} {s : State} {c : Channel} {a : ChannelState} :
    ¬ Derivable P s c a ↔ ∃ r, DerivationRaises P s c a r := by
  unfold Derivable DerivationRaises
  cases s.waveStore[waveformIndex P c a]? with
  | none => simp
  | some w => simp

/-- A channel of RECALC_ALL raises where its recalc_increment does, before its volume (R127). -/
theorem recalcChannel_raises {P : Params} {c : Channel} {s : State} {r : FaultReason}
    (h : DerivationRaises P s c (s.ch c) r) : ∃ left, recalcChannel P c s = .fault (.raised r left) := by
  obtain ⟨left, hleft⟩ := recalcIncrement_raises h
  exact ⟨left, by rw [recalcChannel, hleft, andThen_fault]⟩

/-- What follows a channel that raises does not run (R208). -/
theorem recalcChannel_andThen_raises {P : Params} {c : Channel} {s : State} {r : FaultReason}
    {f : State → Result State} (h : DerivationRaises P s c (s.ch c) r) :
    ∃ left, andThen (recalcChannel P c s) f = .fault (.raised r left) := by
  obtain ⟨left, hleft⟩ := recalcChannel_raises h
  exact ⟨left, by rw [hleft, andThen_fault]⟩

/-- A derivable channel is passed: what raises after it, whatever the channel has become, is raised. -/
theorem recalcChannel_andThen_raises_later {P : Params} {c : Channel} {s : State} {r : FaultReason}
    {f : State → Result State} (h : Derivable P s c (s.ch c))
    (hf : ∀ b, ∃ left, f (s.setCh c b) = .fault (.raised r left)) :
    ∃ left, andThen (recalcChannel P c s) f = .fault (.raised r left) := by
  obtain ⟨b, hb, -⟩ := recalcChannel_completes h
  rw [hb, andThen_next]
  exact hf b

/-- RECALC_ALL raises what its first channel that is not derivable raises (R208). -/
theorem recalcAll_raises {P : Params} {s : State} {c : Channel} {r : FaultReason}
    (hbefore : ∀ e, e < c → Derivable P s e (s.ch e)) (hc : DerivationRaises P s c (s.ch c) r) :
    ∃ left, recalcAll P s = .fault (.raised r left) := by
  unfold recalcAll
  match c with
  | 0 => exact recalcChannel_andThen_raises hc
  | 1 =>
    exact recalcChannel_andThen_raises_later (hbefore 0 (by decide)) fun _ => recalcChannel_andThen_raises hc
  | 2 =>
    exact recalcChannel_andThen_raises_later (hbefore 0 (by decide)) fun _ =>
      recalcChannel_andThen_raises_later (hbefore 1 (by decide)) fun _ => recalcChannel_andThen_raises hc
  | 3 =>
    exact recalcChannel_andThen_raises_later (hbefore 0 (by decide)) fun _ =>
      recalcChannel_andThen_raises_later (hbefore 1 (by decide)) fun _ =>
        recalcChannel_andThen_raises_later (hbefore 2 (by decide)) fun _ => recalcChannel_raises hc

/-- Settles O58: both operations re-derive the channels in order, SET_RATE with the new clock increment. -/
theorem recalculationFaults : Obligations.RecalculationFaults := by
  unfold Obligations.RecalculationFaults
  refine ⟨fun s c r hready hbefore hc => ?_, fun rate s u c r hready hrate hu hbefore hc => ?_,
    fun _ _ _ _ => not_derivable_iff⟩
  · rw [exec_recalcAll_of_ready hready]
    exact recalcAll_raises hbefore hc
  · subst hu
    rw [exec_setRate_of_ready hready hrate]
    exact recalcAll_raises (fun e he => (hbefore e he).congr rfl rfl) (hc.congr rfl rfl)

/-- The volume is computed first and is not read by recalc_increment, so Rederive raises where that does (R108). -/
theorem rederive_after_raises {P : Params} {c : Channel} {a : ChannelState} {u : State} {r : FaultReason}
    (h : DerivationRaises P u c a r) : ∃ left, rederive P c (u.setCh c a) = .fault (.raised r left) := by
  refine recalcIncrement_raises ?_
  simp only [recalcVolume, State.ch_setCh_self]
  exact h

/-- A register form raises what the re-derivation of its channel raises (R102 to R106, R123). -/
theorem registerForm_raises {i : Instr} {s : State} {c : Channel} {a : ChannelState} {r : FaultReason}
    (hready : s.Ready) (htarget : registerTarget s i = some (c, a)) (h : DerivationRaises Config.params s c a r) :
    ∃ left, exec i s = .fault (.raised r left) := by
  cases i with
  | volLatch c d =>
    cases htarget
    obtain ⟨left, hleft⟩ := rederive_after_raises (u := prologue .reg (volLatchByte c d) s) (h.congr rfl rfl)
    exact ⟨left, by rw [exec, execVolLatch, whenReady_of_ready hready, volLatch_eq, hleft, andThen_fault]⟩
  | perLatch c p =>
    cases htarget
    rw [exec, execPerLatch, whenReady_of_ready hready, perLatch_eq, reseed_eq]
    exact rederive_after_raises (h.congr rfl rfl)
  | volCont x d =>
    cases htarget
    rw [exec, execVolCont, whenReady_of_ready hready, volCont_eq]
    exact rederive_after_raises (h.congr rfl rfl)
  | perCont x p =>
    cases htarget
    rw [exec, execPerCont, whenReady_of_ready hready, perCont_eq]
    exact rederive_after_raises (h.congr rfl rfl)
  | _ => cases htarget

/-- Settles O16: the premises of the two clauses are the two ways in which the channel's re-derivation raises. -/
theorem registerFormFaults : Obligations.RegisterFormFaults := by
  unfold Obligations.RegisterFormFaults
  intro i s c a hready htarget hp
  exact ⟨fun hnone => registerForm_raises hready htarget ⟨hp, .inl ⟨rfl, hnone⟩⟩,
    fun w hw hcount hbig => registerForm_raises hready htarget ⟨hp, .inr ⟨rfl, w, hw, hcount, hbig⟩⟩⟩

/-! ## LOAD_STATE (R129) -/

/-- A value within a register's width is held exactly. -/
theorem toNat_ofInt_of_inWidth {n : Nat} {x : Int} (hnonneg : 0 ≤ x) (hlt : x < 2 ^ n) :
    ((BitVec.ofInt n x).toNat : Int) = x := by
  rw [BitVec.toNat_ofInt, Nat.cast_pow, Nat.cast_ofNat, Int.emod_eq_of_lt hnonneg hlt, Int.toNat_of_nonneg hnonneg]

/-- A reference that is not negative is kept. -/
theorem map_ofNat_map_toNat {ref : Option Int} (h : ∀ k, ref = some k → 0 ≤ k) :
    (ref.map Int.toNat).map Int.ofNat = ref := by
  cases ref with
  | none => rfl
  | some k => exact congrArg some (Int.toNat_of_nonneg (h k rfl))

theorem ChannelFits.loaded {store : List Waveform} {a : SavedChannel} (h : ChannelFits store a) :
    ChannelLoaded a (loadedChannel a) := by
  obtain ⟨⟨hvol, hvol'⟩, ⟨hper, hper'⟩, ⟨hpos, -⟩, hinc, ⟨hscaled, -⟩, href⟩ := h
  exact ⟨toNat_ofInt_of_inWidth hvol hvol', toNat_ofInt_of_inWidth hper hper',
    map_ofNat_map_toNat fun k hk => (href k hk).1, Int.toNat_of_nonneg hpos, Int.toNat_of_nonneg hinc,
    Int.toNat_of_nonneg hscaled⟩

/-- Settles O23: the check of LOAD_STATE is the record's fitting, and a record that fits is held exactly. -/
theorem loadStateResult : Obligations.LoadStateResult := by
  unfold Obligations.LoadStateResult
  intro r s hready
  have hexec : exec (.loadState r) s = loadState Config.params r s := whenReady_of_ready hready
  rw [hexec, loadState]
  refine ⟨fun hfits => ?_, fun hmisfit => ?_⟩
  · rw [if_pos (acceptsRecord_iff.2 hfits)]
    obtain ⟨hchan, ⟨hlatch, hlatch'⟩, ⟨hmask, hmask'⟩, ⟨hlfsr, hlfsr'⟩, -, hcursor, -⟩ := hfits
    refine ⟨(loadedState r s).chan, _, _, _, _, _, rfl, fun c => ?_, toNat_ofInt_of_inWidth hlatch hlatch',
      toNat_ofInt_of_inWidth hmask hmask', toNat_ofInt_of_inWidth hlfsr hlfsr', Int.toNat_of_nonneg hcursor,
      Memory.wf_ofList _, Memory.read_ofList _⟩
    show ChannelLoaded _ ((loadedState r s).ch c)
    rw [loadedState_ch]
    exact (hchan c).loaded
  · rw [if_neg (mt acceptsRecord_iff.1 hmisfit)]
    rfl

/-! ## A channel with a period has a waveform (R130) -/

theorem recalcIncrement_assigns {P : Params} {c : Channel} {s t : State} (h : recalcIncrement P c s = .next t)
    (hp : (t.ch c).period ≠ 0) : (t.ch c).waveformRef ≠ none := by
  obtain ⟨hzero, rfl⟩ | ⟨-, w, -, -, rfl⟩ := recalcIncrement_eq_next.1 h
  · exact absurd hzero hp
  · rw [State.ch_setCh_self]
    exact Option.some_ne_none _

/-- A re-derivation leaves a channel without a waveform only if it had neither a period nor a waveform (R122). -/
theorem Rederived.unassigned {P : Params} {s : State} {c : Channel} {a b : ChannelState} (h : Rederived P s c a b)
    (hnone : b.waveformRef = none) : b.period = 0 ∧ a.waveformRef = none := by
  by_cases hp : a.period = 0
  · obtain ⟨href, -⟩ := h.inert hp
    exact ⟨h.period.trans hp, href.symm.trans hnone⟩
  · exact absurd ((h.waveform hp).symm.trans hnone) (Option.some_ne_none _)

theorem Rederived.assigned {P : Params} {s : State} {c : Channel} {a b : ChannelState} (h : Rederived P s c a b)
    (hp : b.period ≠ 0) : b.waveformRef ≠ none :=
  fun hnone => hp (h.unassigned hnone).1

/-- A volume write that clears an assignment is an attack (R107). -/
theorem withVolume_clears {d : BitVec 4} {a : ChannelState} (hassigned : a.waveformRef ≠ none)
    (hcleared : (withVolume d a).waveformRef = none) : a.volume.toNat + 2 < (~~~d).toNat := by
  by_contra hquiet
  exact hassigned ((if_neg hquiet).symm.trans hcleared)

/-- Before its re-derivation a register form has cleared its channel's assignment only by an attack (R107). -/
theorem registerTarget_clears {s : State} {i : Instr} {c : Channel} {a : ChannelState}
    (htarget : registerTarget s i = some (c, a)) (hassigned : (s.ch c).waveformRef ≠ none)
    (hcleared : a.waveformRef = none) :
    ∃ d, (i = .volLatch c d ∨ (∃ x, i = .volCont x d) ∧ c = latchedChannel s.lastLatch) ∧
      (s.ch c).volume.toNat + 2 < (~~~d).toNat := by
  cases i with
  | volLatch c' d => cases htarget; exact ⟨d, .inl rfl, withVolume_clears hassigned hcleared⟩
  | volCont x d => cases htarget; exact ⟨d, .inr ⟨⟨x, rfl⟩, rfl⟩, withVolume_clears hassigned hcleared⟩
  | perLatch c' p => cases htarget; exact absurd hcleared hassigned
  | perCont x p => cases htarget; exact absurd hcleared hassigned
  | _ => cases htarget

/-- Outside INIT and LOAD_STATE a channel that loses its assignment is the channel a register form writes: every other
re-derivation starts from the channel as it was, and a TICK moves positions alone. -/
theorem exec_unassigns {i : Instr} {s t : State} {c : Channel} (hinit : ∀ rate enh store, i ≠ .init rate enh store)
    (hload : ∀ r, i ≠ .loadState r) (h : exec i s = .next t) (hassigned : (s.ch c).waveformRef ≠ none)
    (hnone : (t.ch c).waveformRef = none) :
    (t.ch c).period = 0 ∧ ∃ a, registerTarget s i = some (c, a) ∧ a.waveformRef = none := by
  cases exec_effect h with
  | @register _ c' a b _ _ target hR =>
    simp only [State.ch, Quad.get_set] at hnone ⊢
    split at hnone
    case isTrue hc =>
      subst hc
      obtain ⟨hp, hcleared⟩ := hR.unassigned hnone
      exact ⟨by rw [if_pos rfl]; exact hp, a, target, hcleared⟩
    case isFalse => exact absurd hnone hassigned
  | stereo => exact absurd hnone hassigned
  | tick _ _ moved =>
    obtain ⟨n, hn, -⟩ := moved c
    exact absurd ((congrArg ChannelState.waveformRef hn).symm.trans hnone) hassigned
  | init enh store _ => exact absurd rfl (hinit _ enh store)
  | setRate _ hR => exact absurd ((hR c).unassigned hnone).2 hassigned
  | recalcAll hR => exact absurd ((hR c).unassigned hnone).2 hassigned
  | loadState => exact absurd rfl (hload _)

theorem initialState_assigned (P : Params) (rate : Nat) (enh : Bool) (store : List Waveform) (s : State) :
    Assigned (initialState P rate enh store s) := by
  intro c hp
  rw [initialState_ch] at hp
  exact absurd rfl hp

theorem exec_keeps_assigned {i : Instr} {s t : State} (hload : ∀ r, i ≠ .loadState r) (hs : Assigned s)
    (h : exec i s = .next t) : Assigned t := by
  cases exec_effect h with
  | @register _ c a b _ _ _ hR =>
    intro d hp
    simp only [State.ch, Quad.get_set] at hp ⊢
    split at hp
    case isTrue hd => rw [if_pos hd]; exact hR.assigned hp
    case isFalse hd => rw [if_neg hd]; exact hs d hp
  | stereo => exact hs
  | @tick q _ _ _ _ moved =>
    intro c
    show (q.get c).period ≠ 0 → (q.get c).waveformRef ≠ none
    obtain ⟨n, hn, -⟩ := moved c
    rw [hn]
    exact hs c
  | init => exact initialState_assigned _ _ _ _ _
  | setRate _ hR => exact fun c => (hR c).assigned
  | recalcAll hR => exact fun c => (hR c).assigned
  | loadState => exact absurd rfl (hload _)

/-- Settles O53: a re-derivation assigns a waveform to a channel with a period, and only the attack test clears one. -/
theorem periodImpliesWaveform : Obligations.PeriodImpliesWaveform := by
  unfold Obligations.PeriodImpliesWaveform
  refine ⟨fun _ _ _ _ => recalcIncrement_assigns, fun i s t c hinit hload h hassigned hnone => ?_,
    fun rate enh store s t h => ?_, fun _ _ _ => exec_keeps_assigned⟩
  · obtain ⟨hp, a, htarget, hcleared⟩ := exec_unassigns hinit hload h hassigned hnone
    exact ⟨hp, registerTarget_clears htarget hassigned hcleared⟩
  · cases exec_effect h with
    | register target => cases target
    | init => exact initialState_assigned _ _ _ _ _

end Sys2Proof.Machine
end

section
/-! PROOF. The noise generator (42_noise_generator.md): the rate, one step of the LFSR bit by bit, what a TICK makes of
the phase and the register, and the cycles of the register. -/

namespace Sys2Proof.Machine

/-! ## The fields of `period[3]` and the rate -/

/-- The mask 4 reads bit 2 (R142). -/
theorem feedbackSelect_eq (p : BitVec 10) : feedbackSelect p = p.getLsbD 2 := by
  have htap : p &&& 4 = if p.getLsbD 2 then BitVec.twoPow 10 2 else 0 := BitVec.and_twoPow p 2
  rw [feedbackSelect, htap]
  cases p.getLsbD 2 <;> rfl

/-- The mask 3 keeps the two low bits (R140). -/
theorem noiseMode_eq (p : BitVec 10) : noiseMode p = p.toNat % 4 := by
  rw [noiseMode, BitVec.toNat_and]
  exact Nat.and_two_pow_sub_one_eq_mod p.toNat 2

/-- Settles O28: a shift to the left by k multiplies by 2 ^ k. -/
theorem noiseRateCases : Obligations.NoiseRateCases := by
  unfold Obligations.NoiseRateCases
  intro s
  simp only [noiseRate, noiseMode_eq, Nat.shiftLeft_eq, Nat.reducePow]

/-! ## One step of the register -/

theorem getLsbD_lowBit_shiftLeft (y : BitVec 17) {n : Nat} (hn : n < 17) (j : Nat) :
    ((y &&& 1#17) <<< n).getLsbD j = (decide (j = n) && y.getLsbD 0) := by
  rw [BitVec.getLsbD_shiftLeft]
  by_cases hj : j = n
  · subst hj
    simp [hn]
  · by_cases hlt : j < n
    · simp [hj, hlt]
    · have hne : j - n ≠ 0 := by omega
      simp [hj, hne, BitVec.getLsbD_one]

theorem lfsrStep_false (x : BitVec 17) : lfsrStep false x = (x ^^^ ((x &&& 1) <<< 16)) >>> 1 := rfl

theorem lfsrStep_true (x : BitVec 17) : lfsrStep true x =
    (x ^^^ ((x &&& 1) <<< 16) ^^^ ((((x ^^^ ((x &&& 1) <<< 16)) >>> 3) &&& 1) <<< 13)) >>> 1 := rfl

/-- The step is a shift to the right with bit 0 fed into bit 15 and, with the feedback bit set, bit 3 into bit 12; the
first tap does not reach bit 3, which the second reads (R142). -/
theorem getLsbD_lfsrStep (feedback : Bool) (x : BitVec 17) (i : Nat) :
    (lfsrStep feedback x).getLsbD i =
      (x.getLsbD (i + 1) ^^ (decide (i = 15) && x.getLsbD 0) ^^ (decide (i = 12) && (feedback && x.getLsbD 3))) := by
  cases feedback with
  | false => simp [lfsrStep_false, getLsbD_lowBit_shiftLeft, Nat.add_comm 1 i, -BitVec.getLsbD_shiftLeft]
  | true => simp [lfsrStep_true, getLsbD_lowBit_shiftLeft, Nat.add_comm 1 i, -BitVec.getLsbD_shiftLeft]

/-- Settles O29: `getLsbD_lfsrStep` at bits 16, 15, 12 and at the bits no tap reaches. -/
theorem lfsrStepBits : Obligations.LfsrStepBits := by
  unfold Obligations.LfsrStepBits
  intro feedback x
  refine ⟨lfsrStep_top feedback x, ?_, ?_, fun i hi hne => ?_⟩
  · rw [getLsbD_lfsrStep]
    simp
  · rw [getLsbD_lfsrStep]
    simp
  · have h15 : i ≠ 15 := by omega
    simp [getLsbD_lfsrStep, h15, hne]

/-! ## The advance of a TICK -/

/-- The range check stands before the loop, so the register is kept where it fails (R143). -/
theorem noiseAdvance_raises {s : State} (h : 2 ^ 31 ≤ (s.ch 3).position + noiseRate s) :
    ∃ left, noiseAdvance s = .fault (.raised .arithRange left) ∧ left.lfsr = s.lfsr :=
  ⟨_, if_pos h, rfl⟩

/-- Settles O30: no stage of TICK but NoiseAdvance changes the phase or the register. -/
theorem noiseAdvancesOnEveryTick : Obligations.NoiseAdvancesOnEveryTick := by
  unfold Obligations.NoiseAdvancesOnEveryTick
  refine ⟨fun s t h => ?_, fun s => noiseAdvance_raises⟩
  obtain ⟨-, h⟩ := whenReady_eq_next h
  obtain ⟨p, next, -, hrange, -, hphase, rfl⟩ := tick_changes h
  obtain ⟨m, k, left, right, -, hmix⟩ := mixDown_changes Config.params p _
  rw [hmix, ← feedbackSelect_eq]
  exact ⟨hrange, hphase, rfl⟩

/-! ## The cycles of the register -/

/-- With the feedback bit clear and bit 16 clear a step rotates the low sixteen bits to the right by one (R145). -/
theorem getLsbD_lfsrStep_false {x : BitVec 17} (hx : x.getLsbD 16 = false) {i : Nat} (hi : i < 16) :
    (lfsrStep false x).getLsbD i = x.getLsbD ((i + 1) % 16) := by
  rw [getLsbD_lfsrStep]
  by_cases h15 : i = 15
  · subst h15
    rw [hx]
    simp
  · have hmod : (i + 1) % 16 = i + 1 := Nat.mod_eq_of_lt (by omega)
    simp [h15, hmod]

theorem getLsbD_lfsrStep_false_iterate {x : BitVec 17} (hx : x.getLsbD 16 = false) :
    ∀ (n : Nat) {i : Nat}, i < 16 → ((lfsrStep false)^[n] x).getLsbD i = x.getLsbD ((i + n) % 16)
  | 0, i, hi => by rw [Nat.add_zero, Nat.mod_eq_of_lt hi]; rfl
  | n + 1, i, hi => by
    rw [Function.iterate_succ_apply', getLsbD_lfsrStep_false (lfsrStep_iterate_top false hx n) hi,
      getLsbD_lfsrStep_false_iterate hx n (Nat.mod_lt _ (by norm_num)), Nat.mod_add_mod, Nat.add_assoc,
      Nat.add_comm 1 n]

/-- Settles O31: sixteen rotations by one bring each of the sixteen low bits back to its place. -/
theorem sixteenStepsRotateBack : Obligations.SixteenStepsRotateBack := by
  unfold Obligations.SixteenStepsRotateBack
  intro x hx
  refine BitVec.eq_of_getLsbD_eq fun i hi => ?_
  by_cases htop : i = 16
  · rw [htop, lfsrStep_iterate_top false hx, hx]
  · have hlow : i < 16 := by omega
    rw [getLsbD_lfsrStep_false_iterate hx 16 hlow, Nat.add_mod_right, Nat.mod_eq_of_lt hlow]

/-- The return times of a point are closed under gcd, so a return time no proper divisor of which is one is the
least. -/
theorem iterate_ne_of_properDivisors {α : Type} {f : α → α} {x : α} {N : Nat} (hN : f^[N] x = x)
    (hdiv : ∀ d ∈ N.properDivisors, f^[d] x ≠ x) (n : Nat) (hpos : 0 < n) (hlt : n < N) : f^[n] x ≠ x := by
  intro hn
  have hgcd : f^[n.gcd N] x = x := Function.IsPeriodicPt.gcd hn hN
  have hle : n.gcd N ≤ n := Nat.gcd_le_left N hpos
  exact hdiv _ (Nat.mem_properDivisors.2 ⟨Nat.gcd_dvd_right n N, by omega⟩) hgcd

/-- The register with the feedback bit set, from the seed 1, at every 31st step of its cycle of 14 · 31 (R145). -/
def seedWaypoints : List (BitVec 17) :=
  [0x1, 0x22, 0x414, 0xA8A0, 0x5104, 0xAA02, 0x150, 0x2808, 0x5511, 0x280, 0x5440, 0x2AAA, 0x545, 0x808A, 0x1]

theorem seedWaypoints_step : ∀ i < 14,
    (lfsrStep true)^[31] (seedWaypoints.getD i 0) = seedWaypoints.getD (i + 1) 0 := by
  intro i hi
  interval_cases i <;> decide

theorem lfsrStep_true_iterate_mul : ∀ i ≤ 14, (lfsrStep true)^[31 * i] 1 = seedWaypoints.getD i 0
  | 0, _ => rfl
  | i + 1, hi => by
    rw [Nat.mul_succ, Nat.add_comm, Function.iterate_add_apply, lfsrStep_true_iterate_mul i (by omega),
      seedWaypoints_step i (by omega)]

/-- A proper divisor of 434 = 31 · 14 is a multiple of 31, where the waypoints stand, or divides 14. -/
theorem lfsrStep_true_iterate_ne {d : Nat} (hd : d ∈ Nat.properDivisors 434) : (lfsrStep true)^[d] 1 ≠ 1 := by
  obtain ⟨hdvd, hlt⟩ := Nat.mem_properDivisors.1 hd
  have hpos : 0 < d := Nat.pos_of_dvd_of_pos hdvd (by norm_num)
  by_cases h31 : 31 ∣ d
  · obtain ⟨i, rfl⟩ := h31
    have hwaypoints : ∀ i < 14, 0 < i → seedWaypoints.getD i 0 ≠ 1 := by decide
    rw [lfsrStep_true_iterate_mul i (by omega)]
    exact hwaypoints i (by omega) (by omega)
  · have hcoprime : d.Coprime 31 := ((Nat.Prime.coprime_iff_not_dvd (by norm_num)).2 h31).symm
    have hle : d ≤ 14 := Nat.le_of_dvd (by norm_num) (hcoprime.dvd_of_dvd_mul_left hdvd)
    have hfirst : ∀ n ≤ 14, 0 < n → (lfsrStep true)^[n] 1 ≠ 1 := by decide
    exact hfirst d hle hpos

/-- Settles O32: the seed returns after 16 and after 434 steps, and after no proper divisor of these. -/
theorem seedCycleLengths : Obligations.SeedCycleLengths := by
  unfold Obligations.SeedCycleLengths
  have h16 : (lfsrStep false)^[16] 1 = 1 := sixteenStepsRotateBack 1 (by decide)
  have h434 : (lfsrStep true)^[434] 1 = 1 := lfsrStep_true_iterate_mul 14 le_rfl
  exact ⟨⟨h16, iterate_ne_of_properDivisors h16 (by decide)⟩,
    ⟨h434, iterate_ne_of_properDivisors h434 fun _ => lfsrStep_true_iterate_ne⟩, by decide, by decide, by decide⟩

end Sys2Proof.Machine
end

section
/-! PROOF. TICK (43_tick_synthesis.md): the rewind, ToneSample, the stages after it as one record, the echo ring, the
stereo mix, and where TICK raises ArithRange. -/

namespace Sys2Proof.Machine

/-! ## LOOP_REMASK and the rewind (R162, R163) -/

/-- Settles O57: the re-mask puts a fraction below 2 ^ 10 in place of the old one; a function that keeps the index
differs from its argument in such a fraction alone. -/
theorem loopRemaskIsAnyLegalFunction : Obligations.LoopRemaskIsAnyLegalFunction := by
  unfold Obligations.LoopRemaskIsAnyLegalFunction
  refine ⟨loopRemask_index, fun f P hf p => ?_⟩
  have hindex := hf p
  simp only [Nat.shiftRight_eq_div_pow] at hindex
  rw [Params.loopRemask, ← hindex]
  exact Nat.div_add_mod' (f p) (2 ^ 10)

/-- The rewind takes off n whole loop distances; without a pass the position is kept, and before the last pass the
index was not below the length. -/
theorem Rewinds.loops {P : Params} {w : Waveform} {pos out : Nat} (h : Rewinds P w pos out) :
    ∃ n, pos >>> 10 = (out >>> 10) + n * w.loopDistance ∧ (n = 0 → out = pos) ∧
      (n ≠ 0 → w.length ≤ (out >>> 10) + w.loopDistance) := by
  induction h with
  | stop pos _ => exact ⟨0, by omega, fun _ => rfl, fun hne => absurd rfl hne⟩
  | pass pos out hpast _ hroom _ ih =>
    obtain ⟨n, hindex, hzero, hmore⟩ := ih
    have hfit : w.loopDistance ≤ pos >>> 10 := by
      rw [Nat.shiftRight_eq_div_pow]; omega
    rw [index_after_pass P hroom] at hindex
    refine ⟨n + 1, by rw [Nat.succ_mul]; omega, fun h => absurd h n.succ_ne_zero, fun _ => ?_⟩
    by_cases hn : n = 0
    · subst hn
      omega
    · exact hmore hn

/-- Settles O25: the rewind of a well-formed waveform ends, and its passes are counted by `Rewinds.loops`. -/
theorem rewindLandsInside : Obligations.RewindLandsInside := by
  unfold Obligations.RewindLandsInside
  intro P w pos hwf
  obtain ⟨out, hrewinds⟩ := Rewinds.exists_of_wf (P := P) hwf pos
  obtain ⟨n, hindex, hzero, hmore⟩ := hrewinds.loops
  exact ⟨out, n, rewind_inside.2 hrewinds, hrewinds.index_lt, hindex, hzero, hmore⟩

/-! ## ToneSample (R161 to R166) -/

/-- ToneRead answers only on a channel whose waveform is in the store. -/
theorem assigned_of_toneRead_eq_next {P : Params} {c : Channel} {s t : State} {p : Int}
    (h : toneRead P c s = .next (t, p)) : ∃ k w, (s.ch c).waveformRef = some k ∧ s.waveStore[k]? = some w := by
  cases hassigned : assignedWaveform s c with
  | none => rw [toneRead, hassigned] at h; cases h
  | some w =>
    obtain ⟨k, hk, hw⟩ := Option.bind_eq_some_iff.1 hassigned
    exact ⟨k, w, hk, hw⟩

/-- ToneSample answers alike on every state with the same channel and store (R166). -/
theorem toneSample_congr {P : Params} {c : Channel} {s t u : State} {p : Int} (h : toneSample P c s = .next (t, p))
    (hch : u.ch c = s.ch c) (hstore : u.waveStore = s.waveStore) :
    toneSample P c u = .next (u.setCh c (t.ch c), p) := by
  have hkept : u.setCh c (s.ch c) = u := by rw [← hch, State.setCh_ch]
  rw [toneSample_paths] at h ⊢
  rw [hch]
  split at h
  · rename_i hsilent
    cases h
    rw [if_pos hsilent, hkept]
  rename_i hsilent
  rw [if_neg hsilent]
  split at h
  · rename_i hbypass
    cases h
    rw [if_pos hbypass, hkept]
  rename_i hbypass
  rw [if_neg hbypass]
  split at h
  · rename_i hnone
    cases h
    rw [if_pos hnone, hkept]
  rename_i hnone
  rw [if_neg hnone]
  obtain ⟨k, w, hk, hw⟩ := assigned_of_toneRead_eq_next h
  obtain ⟨next, hreads, hlt, rfl⟩ := (toneRead_eq_next hk hw).1 h
  refine (toneRead_eq_next (hch ▸ hk) (hstore ▸ hw)).2 ⟨next, hch ▸ hreads, hlt, ?_⟩
  rw [State.ch_setCh_self, hch]

/-- Settles O36: the answer is one of `toneSample_cases`, and the same on every state with that channel and store. -/
theorem toneSampleReadsOnlyItsChannel : Obligations.ToneSampleReadsOnlyItsChannel := by
  unfold Obligations.ToneSampleReadsOnlyItsChannel
  intro P c s t p h
  refine ⟨?_, fun u => toneSample_congr h⟩
  obtain ⟨next, -, -, rfl⟩ := toneSample_cases h
  rw [State.ch_setCh_self]

/-! ## The stereo mix (R172) -/

/-- Each side of a channel is its own choice between the contribution and a quarter of it. -/
theorem channelPan_eq (mask : Byte) (c : Channel) (p : Int) : channelPan mask c p =
    (if leftEnable mask c then p else p / 4, if rightEnable mask c then p else p / 4) := by
  have hquarter : shiftDown p 2 = p / 4 := shiftDown_eq_div p 2
  unfold channelPan
  cases leftEnable mask c <;> cases rightEnable mask c <;> simp [hquarter]

/-- Settles O33: the sums over the four channels of what `channelPan_eq` says of each. -/
theorem stereoMixSums : Obligations.StereoMixSums := by
  unfold Obligations.StereoMixSums
  intro mask p
  simp only [stereoMix, channelPan_eq]
  exact ⟨rfl, rfl⟩

/-! ## The stages after the four samples (R170, R172, R174) -/

/-- The mask of the ring reduces an index modulo the ring's size (R55). -/
theorem and_echoMask (P : Params) (i : Nat) : i &&& P.echoMask = i % P.echoLen :=
  Nat.and_two_pow_sub_one_eq_mod i P.echoLog2

theorem echoEntry_eq (p : Mix) : echoEntry p = (p.c0 + p.c1) / 2 := shiftDown_eq_div _ 1

theorem echoMix_eq (P : Params) (p : Mix) (s : State) : echoMix P p s = { p with
    c0 := P.echoScale (p.c0 + s.echo.read ((s.writeCursor + 1) % P.echoLen))
    c1 := P.echoScale p.c1 } := by
  simp only [echoMix, echoRead, and_echoMask, Nat.mod_mod]

/-- The contributions that reach the stereo mix: those after the echo stage if the enhancement is on. -/
def mixedContributions (P : Params) (p : Mix) (s : State) : Mix :=
  if s.enhancementEnabled then echoMix P p s else p

/-- All that the last stages of TICK change, as one record. -/
theorem mixDown_record (P : Params) (p : Mix) (s : State) : mixDown P p s = { s with
    echo := if s.enhancementEnabled then
        s.echo.write (s.writeCursor % P.echoLen) (((mixedContributions P p s).c0 + (mixedContributions P p s).c1) / 2)
      else s.echo
    writeCursor := if s.enhancementEnabled then (s.writeCursor + 1) % P.echoLen else s.writeCursor
    accLeft := s.accLeft + (stereoMix s.stereoMask (mixedContributions P p s)).1
    accRight := s.accRight + (stereoMix s.stereoMask (mixedContributions P p s)).2
    samples := s.samples ++ [stereoMix s.stereoMask (mixedContributions P p s)] } := by
  rw [mixDown_eq, mixedContributions]
  split
  · rw [echoWritten, and_echoMask, and_echoMask, echoEntry_eq]; rfl
  · rfl

/-- Settles O24: TICK completes where its channels do, and its stages are those of `tick_changes` and
`mixDown_record`. -/
theorem tickResult : Obligations.TickResult := by
  unfold Obligations.TickResult
  intro s hready hplay hnoise
  obtain ⟨t, ht⟩ := tick_completes hplay hnoise
  have hexec : exec .tick s = .next t := (whenReady_of_ready hready).trans ht
  obtain ⟨p, next, htone, -, hnoiseValue, hphase, rfl⟩ := tick_changes ht
  refine ⟨p, mixedContributions Config.params p s, next, fun c hc => (htone c hc).1, hnoiseValue, hphase, ?_, ?_⟩
  · rw [mixedContributions, echoMix_eq]
  · rw [hexec, mixDown_record]; rfl

/-- Settles O38: the effect of TICK names the pair it delivers. -/
theorem tickAccumulatesItsPair : Obligations.TickAccumulatesItsPair := by
  unfold Obligations.TickAccumulatesItsPair
  intro s t h
  cases exec_effect h with
  | register target => cases target
  | tick left right => exact ⟨left, right, rfl, rfl, rfl⟩

/-- Settles O35: the effect of TICK moves positions, and with the enhancement off holds the ring. -/
theorem tickFrame : Obligations.TickFrame := by
  unfold Obligations.TickFrame
  intro s t h
  cases exec_effect h with
  | register target => cases target
  | @tick q m _ _ _ moved ring =>
    refine ⟨fun c => ?_, rfl, rfl, rfl, rfl, rfl, rfl, rfl, rfl, rfl, rfl, fun hoff => ?_⟩
    · obtain ⟨n, hn, -⟩ := moved c
      simp only [State.ch] at hn ⊢
      rw [hn]
      exact ⟨rfl, rfl, rfl, rfl, rfl⟩
    · cases ring with
      | held => exact fun _ => rfl
      | advanced _ hon => rw [hoff] at hon; cases hon

/-! ## The echo ring (R170, R171) -/

/-- Settles O34: a write reads back at its own index alone, which is the cursor, since that is inside the ring. -/
theorem echoRingAdvance : Obligations.EchoRingAdvance := by
  unfold Obligations.EchoRingAdvance
  intro s t hform hcursor h
  obtain ⟨-, h⟩ := whenReady_eq_next h
  obtain ⟨p, next, -, -, -, -, rfl⟩ := tick_changes h
  rw [mixDown_record]
  refine ⟨fun hon => ⟨fun i hi => ?_, if_pos hon⟩, fun hoff => ?_⟩
  · simp only [if_pos hon, Memory.read_write hform, Nat.mod_eq_of_lt hcursor, if_neg hi]
  · have hoff' : ¬ s.enhancementEnabled = true := Bool.eq_false_iff.1 hoff
    exact ⟨if_neg hoff', if_neg hoff'⟩

/-- At a scaled volume of at most 0x1000 the extreme samples are those of the bytes 0 and 255 (R164). -/
theorem sample_bounds {v b : Nat} (hv : v ≤ 0x1000) (hb : b < 256) :
    -32768 ≤ (v : Int) * ((b : Int) - 128) / 2 ^ 4 ∧ (v : Int) * ((b : Int) - 128) / 2 ^ 4 ≤ 32512 := by
  have hlow : (v : Int) * -128 ≤ v * ((b : Int) - 128) := Int.mul_le_mul_of_nonneg_left (by omega) (by omega)
  have hhigh : (v : Int) * ((b : Int) - 128) ≤ v * 127 := Int.mul_le_mul_of_nonneg_left (by omega) (by omega)
  omega

/-- R164: every tone contribution is in -32768..32512. -/
theorem ToneSamples.bounds {P : Params} {s : State} {a : ChannelState} {p : Int} {next : Nat}
    (h : ToneSamples P s a p next) (hscaled : a.volumeScaled ≤ 0x1000) : -32768 ≤ p ∧ p ≤ 32512 := by
  unfold ToneSamples at h
  split at h
  · omega
  split at h
  · omega
  split at h
  · omega
  · obtain ⟨w, -, pos, b, -, -, rfl, -⟩ := h
    exact sample_bounds hscaled b.isLt

/-- R171: channel 0's contribution after the echo, from one in range and a bounded entry. -/
theorem echoMix_c0_bounds {P : Params} (hscale : ∀ x, P.echoScale x = 3 * x / 4) {s : State} (hs : EchoBounded s)
    {p : Mix} (hlow : -32768 ≤ p.c0) (hhigh : p.c0 ≤ 32512) :
    -54068 ≤ (echoMix P p s).c0 ∧ (echoMix P p s).c0 ≤ 53643 := by
  have hentry := hs ((s.writeCursor + 1) % P.echoLen)
  rw [echoMix_eq]
  simp only [hscale]
  omega

/-- The entry the echo stage stores is bounded where both contributions are in range and the entries are bounded. -/
theorem echoEntry_bounds {P : Params} (hscale : ∀ x, P.echoScale x = 3 * x / 4) {s : State} (hs : EchoBounded s)
    {p : Mix} (h0 : -32768 ≤ p.c0 ∧ p.c0 ≤ 32512) (h1 : -32768 ≤ p.c1 ∧ p.c1 ≤ 32512) :
    -39322 ≤ echoEntry (echoMix P p s) ∧ echoEntry (echoMix P p s) ≤ 39013 := by
  have hc0 := echoMix_c0_bounds hscale hs h0.1 h0.2
  have hc1 : (echoMix P p s).c1 = 3 * p.c1 / 4 := hscale p.c1
  rw [echoEntry_eq, hc1]
  omega

/-- A ring with one entry written is bounded if the entry is. -/
theorem Memory.write_bounded {m : Memory} (hform : m.wf = true)
    (hm : ∀ i, -39322 ≤ m.read i ∧ m.read i ≤ 39013) {v : Int} (hv : -39322 ≤ v ∧ v ≤ 39013) (k i : Nat) :
    -39322 ≤ (m.write k v).read i ∧ (m.write k v).read i ≤ 39013 := by
  rw [Memory.read_write hform]
  split
  · exact hv
  · exact hm i

/-- Settles O55: the one entry a TICK writes is bounded, since the tone contributions are in range (R164). -/
theorem echoEntriesStayBounded : Obligations.EchoEntriesStayBounded := by
  unfold Obligations.EchoEntriesStayBounded
  intro P hscale s hform hscaled hs
  refine ⟨fun t h => ?_, fun p => echoMix_c0_bounds hscale hs⟩
  obtain ⟨p, next, htone, -, -, -, rfl⟩ := tick_changes h
  have h0 := (htone 0 (by decide)).1.bounds (hscaled 0)
  have h1 := (htone 1 (by decide)).1.bounds (hscaled 1)
  rw [mixDown_eq]
  split
  · exact Memory.write_bounded hform hs (echoEntry_bounds hscale hs h0 h1) _
  · exact hs

/-! ## The stereo mask within a TICK (R172) -/

/-- ToneSample neither reads nor changes the stereo mask. -/
theorem toneSample_setStereoMask {P : Params} {c : Channel} {s t : State} {p : Int} (mask : Byte)
    (h : toneSample P c s = .next (t, p)) :
    toneSample P c (s.setStereoMask mask) = .next (t.setStereoMask mask, p) := by
  rw [toneSample_congr (u := s.setStereoMask mask) h rfl rfl]
  obtain ⟨next, -, -, rfl⟩ := toneSample_cases h
  rw [State.ch_setCh_self]
  rfl

/-- NoiseAdvance neither reads nor changes the stereo mask. -/
theorem noiseAdvance_setStereoMask {s t : State} (mask : Byte) (h : noiseAdvance s = .next t) :
    noiseAdvance (s.setStereoMask mask) = .next (t.setStereoMask mask) := by
  obtain ⟨hrange, rfl⟩ := noiseAdvance_eq_next.1 h
  exact noiseAdvance_eq_next.2 ⟨hrange, rfl⟩

/-- Under another mask TICK runs through the same four samples, and only the mix differs. -/
theorem tick_setStereoMask {P : Params} {s t : State} (mask : Byte) (h : tick P s = .next t) :
    ∃ p u, t = mixDown P p u ∧ u.accLeft = s.accLeft ∧ u.accRight = s.accRight ∧ u.samples = s.samples ∧
      tick P (s.setStereoMask mask) = .next (mixDown P p (u.setStereoMask mask)) := by
  obtain ⟨s0, s1, s2, s3, p0, p1, p2, h0, h1, h2, h3, rfl⟩ := tick_cases h
  have hmasked := tick_of_stages (toneSample_setStereoMask mask h0) (toneSample_setStereoMask mask h1)
    (toneSample_setStereoMask mask h2) (noiseAdvance_setStereoMask mask h3)
  obtain ⟨_, -, -, rfl⟩ := toneSample_cases h0
  obtain ⟨_, -, -, rfl⟩ := toneSample_cases h1
  obtain ⟨_, -, -, rfl⟩ := toneSample_cases h2
  obtain ⟨-, rfl⟩ := noiseAdvance_eq_next.1 h3
  exact ⟨_, _, rfl, rfl, rfl, rfl, hmasked⟩

/-- Settles O37: the last stages read the mask for the pair alone. -/
theorem stereoMaskReachesOnlyTheMix : Obligations.StereoMaskReachesOnlyTheMix := by
  unfold Obligations.StereoMaskReachesOnlyTheMix
  intro s t mask h
  obtain ⟨hready, h⟩ := whenReady_eq_next h
  obtain ⟨p, u, rfl, hleft, hright, hsamples, hmasked⟩ := tick_setStereoMask mask h
  have hready' : (s.setStereoMask mask).Ready := hready
  have hexec : exec .tick { s with stereoMask := mask } = .next (mixDown Config.params p (u.setStereoMask mask)) :=
    (whenReady_of_ready hready').trans hmasked
  refine ⟨(stereoMix mask (mixedContributions Config.params p u)).1,
    (stereoMix mask (mixedContributions Config.params p u)).2, ?_⟩
  rw [hexec, mixDown_record, mixDown_record, ← hleft, ← hright, ← hsamples]
  rfl

/-! ## Where TICK raises ArithRange (R143, R165, R208) -/

/-- Reading the ROM raises ArithRange where the rewound position and the increment together reach 2^31 (R165). -/
theorem toneSample_raises_arithRange {P : Params} {c : Channel} {u : State} {k : Nat} {w : Waveform} {p : Int}
    {next : Nat} (hscaled : (u.ch c).volumeScaled ≠ 0) (hperiod : 4 < (u.ch c).period.toNat)
    (hk : (u.ch c).waveformRef = some k) (hw : u.waveStore[k]? = some w) (hreads : ToneReads P w (u.ch c) p next)
    (hbig : 2 ^ 31 ≤ next) : ∃ left, toneSample P c u = .fault (.raised .arithRange left) := by
  obtain ⟨pos, b, hrewinds, hdata, -, rfl⟩ := hreads
  have hassigned : assignedWaveform u c = some w := by rw [assignedWaveform, hk]; exact hw
  have hrom : romRead w (pos >>> 10) = some b := romRead_eq_some.2 ⟨hrewinds.index_lt, hdata⟩
  rw [toneSample_paths, if_neg hscaled, if_neg (by omega), if_neg (by rw [hk]; exact Option.some_ne_none k)]
  simp only [toneRead, hassigned, rewind_inside.2 hrewinds, readAndAdvance, State.ch_setCh_self, hrom, advancePhase,
    if_pos hbig, andThen_raise]
  exact ⟨_, rfl⟩

/-- On a playable channel ToneSample answers and moves that channel's position. -/
theorem toneSample_moves {P : Params} {c : Channel} {s : State} (h : Playable P s (s.ch c)) :
    ∃ t p next, toneSample P c s = .next (t, p) ∧ t = s.setCh c { s.ch c with position := next } := by
  obtain ⟨t, p, htone⟩ := toneSample_completes h
  obtain ⟨next, -, -, ht⟩ := toneSample_cases htone
  exact ⟨t, p, next, htone, ht⟩

/-- Where the three tone channels play, TICK comes to NoiseSample with channel 3 and the noise rate as they were. -/
theorem tick_of_playable {P : Params} {s : State} (h : ∀ c : Channel, c ≠ 3 → Playable P s (s.ch c)) :
    ∃ u p0 p1 p2, u.ch 3 = s.ch 3 ∧ noiseRate u = noiseRate s ∧
      tick P s = andThen (noiseSample u) fun n => .next (mixDown P ⟨p0, p1, p2, n.2⟩ n.1) := by
  obtain ⟨s0, p0, n0, h0, e0⟩ := toneSample_moves (h 0 (by decide))
  obtain ⟨s1, p1, n1, h1, e1⟩ := toneSample_moves (c := 1) (s := s0) (by rw [e0]; exact h 1 (by decide))
  obtain ⟨s2, p2, n2, h2, e2⟩ := toneSample_moves (c := 2) (s := s1) (by rw [e1, e0]; exact h 2 (by decide))
  refine ⟨s2, p0, p1, p2, ?_, ?_, by rw [tick, h0, andThen_next, h1, andThen_next, h2, andThen_next]⟩
  · rw [e2, e1, e0]; rfl
  · rw [e2, e1, e0]; rfl

/-- Settles O59: the first clause is the channel's own raise, which TICK passes on; in the second the tone channels
play and NoiseAdvance raises. -/
theorem tickArithRangeFaults : Obligations.TickArithRangeFaults := by
  unfold Obligations.TickArithRangeFaults
  refine ⟨fun s c k w p next hready hc hbefore hscaled hperiod hk hw hreads hbig => ?_, fun s hready hplay hbig => ?_⟩
  · obtain ⟨f, ⟨left, rfl⟩, hf⟩ := tick_eq_fault (r := fun f => ∃ left, f = .raised .arithRange left) hc hbefore
      fun u hch hstore => by
        obtain ⟨left, hleft⟩ := toneSample_raises_arithRange (P := Config.params) (u := u) (hch ▸ hscaled)
          (hch ▸ hperiod) (hch ▸ hk) (hstore ▸ hw) (hch ▸ hreads) hbig
        exact ⟨_, ⟨left, rfl⟩, hleft⟩
    exact ⟨left, (whenReady_of_ready hready).trans hf⟩
  · obtain ⟨u, p0, p1, p2, hch, hrate, htick⟩ := tick_of_playable hplay
    obtain ⟨left, hleft, -⟩ := noiseAdvance_raises (s := u) (by rw [hch, hrate]; exact hbig)
    refine ⟨left, (whenReady_of_ready hready).trans ?_⟩
    rw [htick, noiseSample, hleft]
    rfl

end Sys2Proof.Machine
end

section
/-! PROOF. Exceptions (60_exceptions.md): the idle and the faulted state, what a raised fault leaves and which operation
raises which reason, and where TICK is stuck, raises RomIndex, or cannot raise ArithRange. -/

namespace Sys2Proof.Machine

/-! ## The idle and the faulted state (R200, R203, R210, R217) -/

theorem step_of_idle {s : State} (h : s.pending = []) : step s = idle s := by
  unfold step; rw [h]

theorem exec_of_faulted {s : State} {r : FaultReason} (h : s.fault = some r) (i : Instr) :
    exec i s = .fault (.terminal r) := by
  cases i with
  | init => exact unlessFaulted_of_some h
  | volLatch | perLatch | volCont | perCont | writeStereo | tick | setRate | recalcAll | loadState =>
    exact whenReady_of_some h

/-- Settles O7: an idle step passes the gate, which hands the state back. -/
theorem idleStepHoldsTheState : Obligations.IdleStepHoldsTheState := by
  unfold Obligations.IdleStepHoldsTheState
  intro s hfault hpending
  rw [step_of_idle hpending, idle, unlessFaulted_of_none hfault]

/-- Settles O47: the gate of every operation answers the terminal fault, and so does that of an idle step; taking an
operation off the pending ones keeps the record. -/
theorem faultedStateHasNoStep : Obligations.FaultedStateHasNoStep := by
  unfold Obligations.FaultedStateHasNoStep
  intro s r hfault
  refine ⟨exec_of_faulted hfault, ?_⟩
  cases hpending : s.pending with
  | nil => rw [step_of_idle hpending, idle, unlessFaulted_of_some hfault]
  | cons request rest =>
    rw [step_of_pending hpending]
    exact exec_of_faulted (s := s.setPending rest) hfault _

/-! ## What an operation that raises leaves (R203) -/

/-- What an operation that raises leaves of `s`, beside `Effect` for one that answers: the four register forms, TICK and
the recalculations raise what a derivation or a ROM read raises; SET_RATE(0) and INIT(0) raise BadRate, and LOAD_STATE
raises BadState. -/
inductive Raised (s : State) : Instr → FaultReason → State → Prop where
  | register {i : Instr} {c : Channel} {a : ChannelState} {r : FaultReason} {q : Quad ChannelState} {latch : Byte}
      {lf : BitVec 17} (target : registerTarget s i = some (c, a)) (reason : r = .romIndex ∨ r = .arithRange) :
      Raised s i r { s with
        chan := q
        lastLatch := latch
        lfsr := lf
        events := s.events ++ prologueEvents (encode i)
        fault := some r }
  | tick {r : FaultReason} {q : Quad ChannelState} (reason : r = .romIndex ∨ r = .arithRange) :
      Raised s .tick r { s with chan := q, fault := some r }
  | recalcAll {r : FaultReason} {q : Quad ChannelState} (reason : r = .romIndex ∨ r = .arithRange) :
      Raised s .recalcAll r { s with chan := q, fault := some r }
  | setRate {rate : Nat} {r : FaultReason} {q : Quad ChannelState} (positive : rate ≠ 0)
      (reason : r = .romIndex ∨ r = .arithRange) :
      Raised s (.setRate rate) r { s.setRate rate (Config.params.clockIncrementAt rate) with
        chan := q
        fault := some r }
  | setRateZero : Raised s (.setRate 0) .badRate { s with fault := some .badRate }
  | initZero (enh : Bool) (store : List Waveform) :
      Raised s (.init 0 enh store) .badRate { s with fault := some .badRate }
  | loadState {record : SavedState} (rejected : acceptsRecord Config.params s.waveStore record = false) :
      Raised s (.loadState record) .badState { s with fault := some .badState }

/-- A register form raises inside the re-derivation of its channel (R102 to R108, R123). -/
theorem registerForm_raised {i : Instr} {s t : State} {c : Channel} {a : ChannelState} {r : FaultReason}
    (htarget : registerTarget s i = some (c, a)) (h : exec i s = .fault (.raised r t)) : Raised s i r t := by
  cases i with
  | volLatch c d =>
    obtain ⟨-, h⟩ := whenReady_eq_raised h
    rw [volLatch_eq] at h
    obtain h | ⟨u, -, h⟩ := andThen_eq_fault h
    · obtain ⟨⟨q, rfl⟩, hreason⟩ := rederive_raised h
      exact .register htarget hreason
    · cases h
  | perLatch c p =>
    obtain ⟨-, h⟩ := whenReady_eq_raised h
    rw [perLatch_eq, reseed_eq] at h
    obtain ⟨⟨q, rfl⟩, hreason⟩ := rederive_raised h
    exact .register htarget hreason
  | volCont x d =>
    obtain ⟨-, h⟩ := whenReady_eq_raised h
    rw [volCont_eq] at h
    obtain ⟨⟨q, rfl⟩, hreason⟩ := rederive_raised h
    exact .register htarget hreason
  | perCont x p =>
    obtain ⟨-, h⟩ := whenReady_eq_raised h
    rw [perCont_eq] at h
    obtain ⟨⟨q, rfl⟩, hreason⟩ := rederive_raised h
    exact .register htarget hreason
  | _ => cases htarget

theorem setRate_raised {rate : Nat} {s t : State} {r : FaultReason}
    (h : setRate Config.params rate s = .fault (.raised r t)) : Raised s (.setRate rate) r t := by
  unfold setRate at h
  split at h
  · rename_i hzero
    obtain ⟨rfl, rfl⟩ := raise_eq_raised h
    subst hzero
    exact .setRateZero
  · rename_i hpositive
    obtain ⟨⟨q, rfl⟩, hreason⟩ := recalcAll_raised h
    exact .setRate hpositive hreason

/-- INIT raises for a rate of 0 alone: with a positive rate it answers, since its re-derivation meets only inert
channels (R220). -/
theorem initialise_raised {rate : Nat} {enh : Bool} {store : List Waveform} {s t : State} {r : FaultReason}
    (h : initialise Config.params rate enh store s = .fault (.raised r t)) : Raised s (.init rate enh store) r t := by
  by_cases hzero : rate = 0
  · subst hzero
    rw [initialise, if_pos (.inl rfl)] at h
    obtain ⟨rfl, rfl⟩ := raise_eq_raised h
    exact .initZero enh store
  · rw [initialise_eq_next.2 ⟨hzero, params_clock, rfl⟩] at h
    cases h

theorem loadState_raised {record : SavedState} {s t : State} {r : FaultReason}
    (h : loadState Config.params record s = .fault (.raised r t)) : Raised s (.loadState record) r t := by
  unfold loadState at h
  split at h
  · cases h
  · rename_i hrejected
    obtain ⟨rfl, rfl⟩ := raise_eq_raised h
    exact .loadState (Bool.eq_false_iff.2 hrejected)

/-- Whatever operation raises, no fault was recorded before, and it has left what `Raised` says. -/
theorem exec_raised {i : Instr} {s t : State} {r : FaultReason} (h : exec i s = .fault (.raised r t)) :
    s.fault = none ∧ Raised s i r t := by
  cases i with
  | volLatch | perLatch | volCont | perCont =>
    obtain ⟨⟨hfault, -⟩, -⟩ := whenReady_eq_raised h
    exact ⟨hfault, registerForm_raised rfl h⟩
  | writeStereo =>
    obtain ⟨-, h⟩ := whenReady_eq_raised h
    cases h
  | tick =>
    obtain ⟨⟨hfault, -⟩, h⟩ := whenReady_eq_raised h
    obtain ⟨⟨q, rfl⟩, hreason⟩ := tick_raised h
    exact ⟨hfault, .tick hreason⟩
  | init =>
    obtain ⟨hfault, h⟩ := unlessFaulted_eq_raised h
    exact ⟨hfault, initialise_raised h⟩
  | setRate =>
    obtain ⟨⟨hfault, -⟩, h⟩ := whenReady_eq_raised h
    exact ⟨hfault, setRate_raised h⟩
  | recalcAll =>
    obtain ⟨⟨hfault, -⟩, h⟩ := whenReady_eq_raised h
    obtain ⟨⟨q, rfl⟩, hreason⟩ := recalcAll_raised h
    exact ⟨hfault, .recalcAll hreason⟩
  | loadState =>
    obtain ⟨⟨hfault, -⟩, h⟩ := whenReady_eq_raised h
    exact ⟨hfault, loadState_raised h⟩

/-- An operation that raises records its reason and returns nothing to the host. -/
theorem Raised.recorded {s t : State} {i : Instr} {r : FaultReason} (h : Raised s i r t) :
    t.fault = some r ∧ t.accLeft = s.accLeft ∧ t.accRight = s.accRight ∧ t.samples = s.samples := by
  cases h with
  | register | tick | recalcAll | setRate | setRateZero | initZero | loadState => exact ⟨rfl, rfl, rfl, rfl⟩

/-- Settles O48: what is left has the record set, so that no operation passes its gate. -/
theorem raisedFaultIsRecorded : Obligations.RaisedFaultIsRecorded := by
  unfold Obligations.RaisedFaultIsRecorded
  intro i s t r h
  obtain ⟨hnone, hraised⟩ := exec_raised h
  obtain ⟨hfault, hleft, hright, hsamples⟩ := hraised.recorded
  exact ⟨hnone, hfault, hleft, hright, hsamples, exec_of_faulted hfault⟩

/-! ## Which operation raises which reason (R203) -/

theorem Raised.init_reason {s t : State} {rate : Nat} {enh : Bool} {store : List Waveform} {r : FaultReason}
    (h : Raised s (.init rate enh store) r t) : r = .badRate := by
  cases h with
  | register target => cases target
  | initZero => rfl

theorem Raised.loadState_reason {s t : State} {record : SavedState} {r : FaultReason}
    (h : Raised s (.loadState record) r t) : r = .badState := by
  cases h with
  | register target => cases target
  | loadState => rfl

theorem not_raised_writeStereo {s t : State} {x l : BitVec 4} {r : FaultReason} : ¬ Raised s (.writeStereo x l) r t := by
  intro h
  cases h with
  | register target => cases target

theorem Raised.badRate_source {s t : State} {i : Instr} (h : Raised s i .badRate t) :
    (∃ rate enh store, i = .init rate enh store) ∨ i = .setRate 0 := by
  cases h with
  | register _ reason | tick reason | recalcAll reason | setRate _ reason => simp at reason
  | setRateZero => exact .inr rfl
  | initZero enh store => exact .inl ⟨0, enh, store, rfl⟩

theorem Raised.badState_source {s t : State} {i : Instr} (h : Raised s i .badState t) :
    ∃ record, i = .loadState record := by
  cases h with
  | register _ reason | tick reason | recalcAll reason | setRate _ reason => simp at reason
  | loadState => exact ⟨_, rfl⟩

/-- The two reasons of the derivation and the ROM read come from none of the operations that do neither, INIT among
them, whose re-derivation is inert. -/
theorem Raised.source_of_other {s t : State} {i : Instr} {r : FaultReason} (h : Raised s i r t) (hrate : r ≠ .badRate)
    (hstate : r ≠ .badState) : (∀ rate enh store, i ≠ .init rate enh store) ∧ (∀ record, i ≠ .loadState record) ∧
      ∀ x l, i ≠ .writeStereo x l := by
  refine ⟨?_, ?_, ?_⟩
  · rintro rate enh store rfl
    exact hrate h.init_reason
  · rintro record rfl
    exact hstate h.loadState_reason
  · rintro x l rfl
    exact not_raised_writeStereo h

/-- Settles O49: reason by reason, from what an operation that raises has left. -/
theorem faultReasonSources : Obligations.FaultReasonSources := by
  unfold Obligations.FaultReasonSources
  intro i s t r h
  obtain ⟨-, hraised⟩ := exec_raised h
  cases r with
  | badRate => exact hraised.badRate_source
  | badState => exact hraised.badState_source
  | romIndex | arithRange => exact hraised.source_of_other (by decide) (by decide)

/-! ## Where TICK is stuck or raises RomIndex (R162, R164, R204, R206) -/

/-- The ROM path of R161: a channel that is neither silent nor bypassed, and has waveform `k`. -/
structure ReadsRom (a : ChannelState) (k : Nat) : Prop where
  audible : a.volumeScaled ≠ 0
  period : 4 < a.period.toNat
  waveform : a.waveformRef = some k

theorem toneSample_of_readsRom {P : Params} {c : Channel} {s : State} {k : Nat} (h : ReadsRom (s.ch c) k) :
    toneSample P c s = toneRead P c s := by
  obtain ⟨hscaled, hperiod, hk⟩ := h
  rw [toneSample_paths, if_neg hscaled, if_neg (by omega), if_neg (by rw [hk]; exact Option.some_ne_none k)]

theorem assignedWaveform_of_ref {c : Channel} {s : State} {k : Nat} (h : (s.ch c).waveformRef = some k) :
    assignedWaveform s c = s.waveStore[k]? := by
  rw [assignedWaveform, h, Option.bind_some]

/-- Where ToneRead stops on the ROM path, the channels before it playing, TICK stops too (R160, R208). -/
theorem exec_tick_fault_of_toneRead {s : State} {c : Channel} {k : Nat} (hready : s.Ready) (hc : c ≠ 3)
    (hbefore : ∀ e, e < c → Playable Config.params s (s.ch e)) (hrom : ReadsRom (s.ch c) k) {r : Fault → Prop}
    (hread : ∀ u : State, u.ch c = s.ch c → assignedWaveform u c = s.waveStore[k]? →
      ∃ f, r f ∧ toneRead Config.params c u = .fault f) : ∃ f, r f ∧ exec .tick s = .fault f := by
  obtain ⟨f, hr, hf⟩ := tick_eq_fault hc hbefore fun u hch hstore => by
    have hrom' : ReadsRom (u.ch c) k := hch ▸ hrom
    rw [toneSample_of_readsRom hrom']
    exact hread u hch (by rw [assignedWaveform_of_ref hrom'.waveform, hstore])
  exact ⟨f, hr, (whenReady_of_ready hready).trans hf⟩

theorem rewind_endless {P : Params} {w : Waveform} {pos : Nat} (hloop : w.loopDistance = 0)
    (hpast : w.length ≤ pos >>> 10) : rewind P w pos = .endless := by
  rw [rewind, rewindLoop, if_neg (Nat.not_lt.2 hpast), if_pos hloop]

theorem toneRead_stuck {P : Params} {c : Channel} {s : State} {w : Waveform} (hw : assignedWaveform s c = some w)
    (hloop : w.loopDistance = 0) (hpast : w.length ≤ (s.ch c).position >>> 10) :
    toneRead P c s = .fault .stuck := by
  simp only [toneRead, hw, rewind_endless hloop hpast]

/-- Settles O26: the rewind of that waveform is endless, so ToneRead is stuck, and TICK with it. -/
theorem tickIsStuckOnEndlessRewind : Obligations.TickIsStuckOnEndlessRewind := by
  unfold Obligations.TickIsStuckOnEndlessRewind
  intro s c k w hready hc hbefore hscaled hperiod hk hw hloop hpast
  obtain ⟨f, rfl, hf⟩ := exec_tick_fault_of_toneRead (r := (· = .stuck)) hready hc hbefore ⟨hscaled, hperiod, hk⟩
    fun u hch hassigned => ⟨.stuck, rfl, toneRead_stuck (hassigned.trans hw) hloop (by rw [hch]; exact hpast)⟩
  exact hf

/-- A waveform of length 0 with a loop distance is rewound below 0 from every position: no index is below its length,
and each pass takes at least 1 off the index (R162, R163). -/
theorem RewindsBelow.of_length_zero {P : Params} {w : Waveform} (hlength : w.length = 0) (hloop : w.loopDistance ≠ 0)
    (pos : Nat) : RewindsBelow P w pos := by
  induction hn : pos >>> 10 using Nat.strong_induction_on generalizing pos with
  | _ n ih =>
    by_cases hfall : pos < w.loopDistance * 2 ^ 10
    · exact .fall pos (by omega) hloop hfall
    · have hindex := index_after_pass P (Nat.not_lt.1 hfall)
      have hpositive : 0 < pos >>> 10 := by
        rw [Nat.shiftRight_eq_div_pow]; omega
      exact .pass pos (by omega) hloop (by omega) (ih _ (by omega) _ hindex)

theorem toneRead_raises_of_none {P : Params} {c : Channel} {s : State} (h : assignedWaveform s c = none) :
    ∃ left, toneRead P c s = .fault (.raised .romIndex left) := by
  simp only [toneRead, h]
  exact ⟨_, rfl⟩

theorem toneRead_raises_of_rewindsBelow {P : Params} {c : Channel} {s : State} {w : Waveform}
    (hw : assignedWaveform s c = some w) (h : RewindsBelow P w (s.ch c).position) :
    ∃ left, toneRead P c s = .fault (.raised .romIndex left) := by
  simp only [toneRead, hw, rewind_negative.2 h]
  exact ⟨_, rfl⟩

theorem toneRead_raises_of_past_data {P : Params} {c : Channel} {s : State} {w : Waveform} {pos : Nat}
    (hw : assignedWaveform s c = some w) (hrewinds : Rewinds P w (s.ch c).position pos)
    (hpast : w.data.length ≤ pos >>> 10) : ∃ left, toneRead P c s = .fault (.raised .romIndex left) := by
  have hrom : romRead w (pos >>> 10) = none := by
    rw [romRead, if_pos hrewinds.index_lt, List.getElem?_eq_none hpast]
  simp only [toneRead, hw, rewind_inside.2 hrewinds, readAndAdvance, State.ch_setCh_self, hrom]
  exact ⟨_, rfl⟩

/-- Settles O27: each cause makes ToneRead raise RomIndex, a length of 0 as a rewind below 0, and TICK passes it on. -/
theorem tickRomIndexFaults : Obligations.TickRomIndexFaults := by
  unfold Obligations.TickRomIndexFaults
  intro s c k hready hc hbefore hscaled hperiod hk hcause
  obtain ⟨f, ⟨left, rfl⟩, hf⟩ := exec_tick_fault_of_toneRead (r := fun f => ∃ left, f = .raised .romIndex left) hready hc
    hbefore ⟨hscaled, hperiod, hk⟩ fun u hch hassigned => by
      suffices h : ∃ left, toneRead Config.params c u = .fault (.raised .romIndex left) by
        obtain ⟨left, hleft⟩ := h
        exact ⟨_, ⟨left, rfl⟩, hleft⟩
      rw [← hch] at hcause
      obtain hnone | ⟨w, hw, ⟨hlength, hloop⟩ | hbelow | ⟨pos, hrewinds, hpast⟩⟩ := hcause
      · exact toneRead_raises_of_none (hassigned.trans hnone)
      · exact toneRead_raises_of_rewindsBelow (hassigned.trans hw) (.of_length_zero hlength hloop _)
      · exact toneRead_raises_of_rewindsBelow (hassigned.trans hw) hbelow
      · exact toneRead_raises_of_past_data (hassigned.trans hw) hrewinds hpast
  exact ⟨left, hf⟩

/-! ## The range at the nominal rate (R205) -/

/-- A waveform of at most 826909 samples has room for the advance at clock increment 2597: on the ROM path the period is
at least 5, so the increment is at most a fifth of the product. -/
theorem playable_at_nominal_rate {P : Params} {s : State} {a : ChannelState} {k : Nat} {w : Waveform}
    (hk : a.waveformRef = some k) (hw : s.waveStore[k]? = some w) (hwf : w.wf = true) (hlength : w.length ≤ 826909)
    (hincrement : a.increment ≤ w.length * 2597 / a.period.toNat) : Playable P s a := by
  by_cases hperiod : a.period.toNat ≤ 4
  · exact .inr (.inl hperiod)
  · have hfifth : w.length * 2597 / a.period.toNat ≤ w.length * 2597 / 5 :=
      Nat.div_le_div_left (by omega) (by omega)
    exact .of_wf hk hw hwf (by omega)

/-- Settles O41: 826909 * 2597 is below 2^31, the channel plays, and a position ToneSample moves is below 2^31. -/
theorem noRangeFaultAtNominalRate : Obligations.NoRangeFaultAtNominalRate := by
  unfold Obligations.NoRangeFaultAtNominalRate
  intro P s c k w hclock hk hw hwf hlength hincrement
  rw [hclock] at hincrement ⊢
  refine ⟨by omega, ?_⟩
  obtain ⟨t, p, htone⟩ := toneSample_completes (playable_at_nominal_rate (P := P) hk hw hwf hlength hincrement)
  obtain ⟨next, -, hnext, rfl⟩ := toneSample_cases htone
  refine ⟨_, p, htone, fun hbelow => ?_⟩
  rw [State.ch_setCh_self]
  exact hnext.elim (fun hkept => hkept ▸ hbelow) id

end Sys2Proof.Machine
end

section
/-! PROOF. Reset and hazards (70_reset_and_hazards.md): what INIT leaves, that nothing runs before it, and that the
block is silent until a volume is written. -/

namespace Sys2Proof.Machine

/-! ## INIT (R220) -/

theorem exec_init_of_noFault {s : State} (h : s.fault = none) (rate : Nat) (enh : Bool) (store : List Waveform) :
    exec (.init rate enh store) s = initialise Config.params rate enh store s := unlessFaulted_of_none h

/-- INIT raises before its first assignment (R220). -/
theorem initialise_raises {P : Params} {rate : Nat} (h : rate = 0 ∨ P.clockTooFast) (enh : Bool)
    (store : List Waveform) (s : State) : initialise P rate enh store s = raise .badRate s := if_pos h

/-- Settles O21: INIT answers its assignments, since its re-derivation changes nothing; both range checks stand before
them. -/
theorem initResult : Obligations.InitResult := by
  unfold Obligations.InitResult
  refine ⟨fun rate enh store s hfault hrate => ?_, fun enh store s hfault => ?_, fun P rate enh store s hfast => ?_⟩
  · rw [exec_init_of_noFault hfault, initialise_eq_next.2 ⟨hrate, params_clock, rfl⟩]
    rfl
  · exact (exec_init_of_noFault hfault 0 enh store).trans (initialise_raises (.inl rfl) enh store s)
  · exact initialise_raises (.inr (decide_eq_true hfast)) enh store s

/-- Settles O22: the values of `initResult` at these arguments, on the fresh state. -/
theorem initMakesTheResetState : Obligations.InitMakesTheResetState := by
  unfold Obligations.InitMakesTheResetState
  exact initResult.1 44100 false [] State.fresh rfl (by decide)

/-! ## Before INIT (R222) -/

/-- Settles O46: INIT alone is not behind the gate that asks for an earlier INIT. -/
theorem refusedBeforeInit : Obligations.RefusedBeforeInit := by
  unfold Obligations.RefusedBeforeInit
  intro i s hfault hfresh hinit
  cases i with
  | init rate enh store => exact absurd rfl (hinit rate enh store)
  | volLatch | perLatch | volCont | perCont | writeStereo | tick | setRate | recalcAll | loadState =>
    exact whenReady_of_fresh hfault hfresh

/-! ## The invariant's base case -/

theorem State.fresh_ch (c : Channel) : State.fresh.ch c = ChannelState.reset := Quad.get_all _ c

/-- Settles O50: both hold an empty ring and reset channels; the clock increment is asked for after INIT only. -/
theorem resetMeetsTheInvariant : Obligations.ResetMeetsTheInvariant := by
  unfold Obligations.ResetMeetsTheInvariant
  refine ⟨stateInv_iff.2 ⟨ringInv_empty _, fun c => ?_, rfl, fun _ => ⟨by decide, rfl⟩⟩,
    stateInv_iff.2 ⟨ringInv_empty _, fun c => ?_, rfl, fun h => absurd h Bool.false_ne_true⟩⟩
  · rw [State.reset_ch]
    exact channelInv_reset _
  · rw [State.fresh_ch]
    exact channelInv_reset _

/-! ## A TICK of a silent machine (R221) -/

/-- A silent channel takes the first path of ToneSample (R161). -/
theorem ToneSamples.eq_zero {P : Params} {s : State} {a : ChannelState} {p : Int} {next : Nat}
    (h : ToneSamples P s a p next) (hsilent : a.volumeScaled = 0) : p = 0 := by
  rw [ToneSamples, if_pos hsilent] at h
  exact h.1

theorem noiseValue_eq_zero {s : State} (h : (s.ch 3).volumeScaled = 0) : noiseValue s = 0 := by
  simp [noiseValue, h]

/-- Whatever its rounding, the echo scale of 0 is 0: three quarters of 0 need none (R170, R221). -/
theorem echoScale_zero (P : Params) : P.echoScale 0 = 0 := rfl

/-- With a ring of zeros the echo stage makes no sound of silence (R170). -/
theorem mixedContributions_zero {P : Params} {s : State} (h : s.echo = []) :
    mixedContributions P (Quad.all 0) s = Quad.all 0 := by
  unfold mixedContributions
  split
  · rw [echoMix_eq, h]
    simp [Quad.all, echoScale_zero]
  · rfl

theorem stereoMix_zero (mask : Byte) : stereoMix mask (Quad.all 0) = (0, 0) := by
  simp [stereoMix, channelPan_eq]

/-- The last stages of TICK on silence: the entry written is 0, so the ring stays zero, and the pair is (0, 0). -/
theorem mixDown_zero {P : Params} {s : State} (h : s.echo = []) : mixDown P (Quad.all 0) s = { s with
    writeCursor := if s.enhancementEnabled then (s.writeCursor + 1) % P.echoLen else s.writeCursor
    samples := s.samples ++ [(0, 0)] } := by
  rw [mixDown_record, mixedContributions_zero h, stereoMix_zero, h]
  simp [Quad.all, Memory.write]

/-- A silent machine makes four contributions of 0, so its TICK ends with the last stages on silence. -/
theorem tick_of_allSilent {P : Params} {s t : State} (hs : AllSilent s) (h : tick P s = .next t) :
    t.echo = [] ∧ t.samples = s.samples ++ [(0, 0)] ∧ t.accLeft = s.accLeft ∧ t.accRight = s.accRight := by
  obtain ⟨hsilent, hring⟩ := hs
  obtain ⟨p, next, htone, -, hnoise, -, rfl⟩ := tick_changes h
  obtain rfl : p = Quad.all 0 := Quad.ext_get <| forall_channel.2
    ⟨(htone 0 (by decide)).1.eq_zero (hsilent 0), (htone 1 (by decide)).1.eq_zero (hsilent 1),
      (htone 2 (by decide)).1.eq_zero (hsilent 2), hnoise.trans (noiseValue_eq_zero (hsilent 3))⟩
  rw [mixDown_zero (by exact hring)]
  exact ⟨hring, rfl, rfl, rfl⟩

theorem exec_tick_of_allSilent {s t : State} (hs : AllSilent s) (h : exec .tick s = .next t) :
    AllSilent t ∧ t.samples = s.samples ++ [(0, 0)] ∧ t.accLeft = s.accLeft ∧ t.accRight = s.accRight := by
  obtain ⟨hring, hpair⟩ := tick_of_allSilent hs (whenReady_eq_next h).2
  obtain ⟨hkept, -⟩ := tickFrame s t h
  refine ⟨⟨fun c => ?_, hring⟩, hpair⟩
  obtain ⟨-, -, -, -, hscaled⟩ := hkept c
  exact hscaled.trans (hs.1 c)

/-- Settles O39: silent channels play, so TICK completes; its noise generator advances as on every TICK (R143). -/
theorem silentTickReturnsZero : Obligations.SilentTickReturnsZero := by
  unfold Obligations.SilentTickReturnsZero
  intro s hready hs hnoise
  obtain ⟨t, ht⟩ := tick_completes (P := Config.params) (fun c _ => .inl (hs.1 c)) hnoise
  have hexec : exec .tick s = .next t := (whenReady_of_ready hready).trans ht
  obtain ⟨hsilent, hpair, hleft, hright⟩ := exec_tick_of_allSilent hs hexec
  obtain ⟨-, -, hlfsr⟩ := noiseAdvancesOnEveryTick.1 s t hexec
  exact ⟨t, hexec, hpair, hleft, hright, hsilent, hlfsr⟩

/-! ## Silence from INIT to the first volume (R220, R221) -/

theorem Quiet.allSilent {s : State} (h : Quiet s) : AllSilent s := ⟨fun c => (h.1 c).2, h.2⟩

theorem initialState_quiet (P : Params) (rate : Nat) (enh : Bool) (store : List Waveform) (s : State) :
    Quiet (initialState P rate enh store s) := by
  refine ⟨fun c => ?_, rfl⟩
  rw [initialState_ch]
  exact ⟨rfl, rfl⟩

/-- A re-derivation at volume 0 gives scaled volume 0: entry 0 of the table is 0 (R120, R121). -/
theorem Rederived.quiet {P : Params} {s : State} {c : Channel} {a b : ChannelState} (h : Rederived P s c a b)
    (hquiet : a.volume = 0) : b.volume = 0 ∧ b.volumeScaled = 0 := by
  refine ⟨h.volume.trans hquiet, ?_⟩
  rw [h.volumeScaled, hquiet]
  rfl

/-- The period forms keep their channel's volume (R104, R106). -/
theorem registerTarget_keeps_volume {s : State} {i : Instr} {c : Channel} {a : ChannelState}
    (hlatch : ∀ c d, i ≠ .volLatch c d) (hcont : ∀ x d, i ≠ .volCont x d)
    (h : registerTarget s i = some (c, a)) : a.volume = (s.ch c).volume := by
  cases i with
  | volLatch c' d => exact absurd rfl (hlatch c' d)
  | volCont x d => exact absurd rfl (hcont x d)
  | perLatch c' p => cases h; rfl
  | perCont x p => cases h; rfl
  | _ => cases h

theorem exec_keeps_quiet {i : Instr} {s t : State} (hs : Quiet s) (hlatch : ∀ c d, i ≠ .volLatch c d)
    (hcont : ∀ x d, i ≠ .volCont x d) (hload : ∀ r, i ≠ .loadState r) (h : exec i s = .next t) : Quiet t := by
  have ⟨hchan, hring⟩ := hs
  cases exec_effect h with
  | @register _ c a b _ _ target hR =>
    refine ⟨fun d => ?_, hring⟩
    simp only [State.ch, Quad.get_set]
    split
    · exact hR.quiet ((registerTarget_keeps_volume hlatch hcont target).trans (hchan c).1)
    · exact hchan d
  | stereo => exact hs
  | @tick q _ _ _ _ moved =>
    refine ⟨fun c => ?_, (exec_tick_of_allSilent hs.allSilent h).1.2⟩
    obtain ⟨n, hn, -⟩ := moved c
    simp only [State.ch] at hn ⊢
    rw [hn]
    exact hchan c
  | init => exact initialState_quiet _ _ _ _ _
  | setRate _ hR => exact ⟨fun c => (hR c).quiet (hchan c).1, hring⟩
  | recalcAll hR => exact ⟨fun c => (hR c).quiet (hchan c).1, hring⟩
  | loadState => exact absurd rfl (hload _)

/-- Settles O40: INIT makes the machine quiet, what does not write a volume keeps it so, and a quiet machine's TICK is
silent. -/
theorem silentUntilAVolumeIsWritten : Obligations.SilentUntilAVolumeIsWritten := by
  unfold Obligations.SilentUntilAVolumeIsWritten
  refine ⟨fun rate enh store s t h => ?_, fun i s t hs hlatch hcont hload h =>
    ⟨exec_keeps_quiet hs hlatch hcont hload h, ?_⟩⟩
  · cases exec_effect h with
    | register target => cases target
    | init =>
      refine ⟨initialState_quiet _ _ _ _ _, fun c => ?_⟩
      rw [initialState_ch]
      rfl
  · split
    case isTrue htick =>
      subst htick
      obtain ⟨-, hpair, -⟩ := exec_tick_of_allSilent hs.allSilent h
      exact hpair
    case isFalse htick =>
      obtain ⟨-, -, hkept⟩ := onlyTickReachesTheTotals i s t h htick
      rw [hkept, List.append_nil]

end Sys2Proof.Machine
end
